-- ==== Sys2Proof/Word.lean ====
section
/-! DEFINITION. The words of the machine (R8): bytes, 16-bit words, 12-bit addresses, nibbles, register
indices, and the 256-bit seed as its four 64-bit words (R28). Every value is unsigned (R8). -/

namespace Sys2Proof

/-- 8 bits (R21). -/
abbrev Byte := BitVec 8

/-- 16 bits: an instruction word, `I`, `PC`, a stack slot (R8, R23, R24, R26). -/
abbrev Word := BitVec 16

/-- The 12-bit field `NNN` (R71). -/
abbrev Addr12 := BitVec 12

/-- A 4-bit field that is no register index (R71). -/
abbrev Nibble := BitVec 4

/-- A register index, 0 to 15: a 4-bit field names every register and nothing else (R21). -/
abbrev Reg := Fin 16

/-- `zext_16(NNN)` (R9, R73). -/
def zext16 (nnn : Addr12) : Word := nnn.setWidth 16

/-- `SEED`: four 64-bit words, one atomic 256-bit unit (R28). The order of the four words has no meaning
outside the two uninterpreted functions of `Config` (R28). -/
structure Seed where
  word0 : BitVec 64
  word1 : BitVec 64
  word2 : BitVec 64
  word3 : BitVec 64
deriving DecidableEq, Repr, Inhabited

end Sys2Proof
end

