-- ==== Sys2Proof/Syntax.lean ====
section
/-! DEFINITION. The instructions: one constructor per row of `spec/opcode_table.json`, 23 instruction forms
(R75) and the 4 rows of illegal words (R79). A constructor holds the operands of its row and, beside them, the
bits its row ignores (R76, R78) or does not examine (R79): they select nothing, but they are part of the word
`w` that a fault records (R31, R97, R181), so no bit of a word is lost by decoding it (log 4). -/

namespace Sys2Proof

inductive Instr where
  /-- `RET`, 0x0XEE; `ignored` is bits 11:8 (R76, R132). -/
  | ret (ignored : Nibble)
  /-- `HALT`, class 0 with a low byte other than 0xEE; `ignored` is bits 11:8 (R76, R96). -/
  | halt (ignored : Nibble) (nn : Byte)
  /-- `JP NNN`, 0x1NNN (R130). -/
  | jp (nnn : Addr12)
  /-- `CALL NNN`, 0x2NNN (R131). -/
  | call (nnn : Addr12)
  /-- `SE Vx, NN`, 0x3XNN (R134). -/
  | seImm (x : Reg) (nn : Byte)
  /-- `SNE Vx, NN`, 0x4XNN (R135). -/
  | sneImm (x : Reg) (nn : Byte)
  /-- `SE Vx, Vy`, 0x5XYN; `ignored` is the low nibble (R78, R136). -/
  | seReg (x y : Reg) (ignored : Nibble)
  /-- `LD Vx, NN`, 0x6XNN (R112). -/
  | ldImm (x : Reg) (nn : Byte)
  /-- `ADD Vx, NN`, 0x7XNN (R113). -/
  | addImm (x : Reg) (nn : Byte)
  /-- `LD Vx, Vy`, 0x8XY0 (R114). -/
  | ldReg (x y : Reg)
  /-- `OR Vx, Vy`, 0x8XY1 (R115). -/
  | orReg (x y : Reg)
  /-- `AND Vx, Vy`, 0x8XY2 (R116). -/
  | andReg (x y : Reg)
  /-- `XOR Vx, Vy`, 0x8XY3 (R117). -/
  | xorReg (x y : Reg)
  /-- `ADD Vx, Vy`, 0x8XY4 (R118). -/
  | addReg (x y : Reg)
  /-- `SUB Vx, Vy`, 0x8XY5 (R119). -/
  | subReg (x y : Reg)
  /-- `SHR Vx, Vy`, 0x8XY6 (R120). -/
  | shrReg (x y : Reg)
  /-- `SUBN Vx, Vy`, 0x8XY7 (R121). -/
  | subnReg (x y : Reg)
  /-- `SHL Vx, Vy`, 0x8XYE (R122). -/
  | shlReg (x y : Reg)
  /-- `SNE Vx, Vy`, 0x9XYN; `ignored` is the low nibble (R78, R137). -/
  | sneReg (x y : Reg) (ignored : Nibble)
  /-- `LD I, NNN`, 0xANNN (R123). -/
  | ldI (nnn : Addr12)
  /-- `JP V0, NNN`, 0xBNNN (R133). -/
  | jpV0 (nnn : Addr12)
  /-- `RND Vx, NN`, 0xCXNN (R152). -/
  | rnd (x : Reg) (nn : Byte)
  /-- `DRW Vx, Vy, N`, 0xDXYN (R161). -/
  | drw (x y : Reg) (n : Nibble)
  /-- Illegal, 0x8XYN with `N` in 8 to B: bits 3:2 are 0b10, `xy` is bits 11:4, `low` bits 1:0 (R79). -/
  | illegal88toB (xy : Byte) (low : BitVec 2)
  /-- Illegal, 0x8XYN with `N` in C, D: bits 3:1 are 0b110, `xy` is bits 11:4, `low` bit 0 (R79). -/
  | illegal8CtoD (xy : Byte) (low : BitVec 1)
  /-- Illegal, 0x8XYF: `xy` is bits 11:4 (R79). -/
  | illegal8F (xy : Byte)
  /-- Illegal, classes E and F: bits 15:13 are 0b111, `low` is bits 12:0 (R79). -/
  | illegalEF (low : BitVec 13)
deriving DecidableEq, Repr

end Sys2Proof
end

