-- ==== Sys2Proof/WellFormed.lean ====
section
/-! DEFINITION. Which terms of `Instr` stand for a word. Field widths are in the types, so one check is left:
a `HALT` whose low byte is 0xEE would be a `RET` (R76). -/

namespace Sys2Proof

/-- The low byte that makes a class-0 word `RET` (R76). -/
def retByte : Byte := 0xEE

/-- An instruction that some word decodes to. -/
def Instr.wellFormed : Instr → Bool
  | .halt _ nn => nn != retByte
  | .ret _ => true
  | .jp _ => true
  | .call _ => true
  | .seImm _ _ => true
  | .sneImm _ _ => true
  | .seReg _ _ _ => true
  | .ldImm _ _ => true
  | .addImm _ _ => true
  | .ldReg _ _ => true
  | .orReg _ _ => true
  | .andReg _ _ => true
  | .xorReg _ _ => true
  | .addReg _ _ => true
  | .subReg _ _ => true
  | .shrReg _ _ => true
  | .subnReg _ _ => true
  | .shlReg _ _ => true
  | .sneReg _ _ _ => true
  | .ldI _ => true
  | .jpV0 _ => true
  | .rnd _ _ => true
  | .drw _ _ _ => true
  | .illegal88toB _ _ => true
  | .illegal8CtoD _ _ => true
  | .illegal8F _ => true
  | .illegalEF _ => true

end Sys2Proof
end

