-- ==== Sys2Proof/Decode.lean ====
section
/-! DEFINITION. The decoder of R74, total on every 16-bit word (R83) and, on bytes, refusing only a sequence too
short to hold a word; the encoder, written from the opcode map of R75 and R79; the opcode table's rows; and the
word the host numbers the table's rows by. -/

namespace Sys2Proof

/-! ## The fields of a word (R71) -/

/-- `OP`, bits 15:12. -/
def opClass (w : Word) : Nibble := w.extractLsb' 12 4

/-- `X` as bits, bits 11:8. -/
def bitsX (w : Word) : Nibble := w.extractLsb' 8 4

/-- `Y` as bits, bits 7:4. -/
def bitsY (w : Word) : Nibble := w.extractLsb' 4 4

/-- `N`, bits 3:0. -/
def fieldN (w : Word) : Nibble := w.extractLsb' 0 4

/-- `NN`, bits 7:0. -/
def fieldNN (w : Word) : Byte := w.extractLsb' 0 8

/-- `NNN`, bits 11:0. -/
def fieldNNN (w : Word) : Addr12 := w.extractLsb' 0 12

/-- A 4-bit field taken as a register index (R21). -/
def regOf (b : Nibble) : Reg := ⟨b.toNat, b.isLt⟩

/-- A register index as the 4 bits of its field. -/
def regBits (r : Reg) : Nibble := BitVec.ofNat 4 r.val

/-- `X` as a register index. -/
def fieldX (w : Word) : Reg := regOf (bitsX w)

/-- `Y` as a register index. -/
def fieldY (w : Word) : Reg := regOf (bitsY w)

/-- Bits 11:4, `X` and `Y` together: what an illegal class-8 word holds beside its sub-selector (R79). -/
def bitsXY (w : Word) : Byte := w.extractLsb' 4 8

/-! ## Decoding (R74) -/

/-- Class 0: the low byte alone tells `RET` from `HALT` (R76). -/
def decodeClass0 (w : Word) : Instr :=
  if fieldNN w = retByte then .ret (bitsX w) else .halt (bitsX w) (fieldNN w)

/-- Class 8: the sub-selector is the low nibble (R77, R79). -/
def decodeClass8 (w : Word) : Instr :=
  match (fieldN w).toNat with
  | 0x0 => .ldReg (fieldX w) (fieldY w)
  | 0x1 => .orReg (fieldX w) (fieldY w)
  | 0x2 => .andReg (fieldX w) (fieldY w)
  | 0x3 => .xorReg (fieldX w) (fieldY w)
  | 0x4 => .addReg (fieldX w) (fieldY w)
  | 0x5 => .subReg (fieldX w) (fieldY w)
  | 0x6 => .shrReg (fieldX w) (fieldY w)
  | 0x7 => .subnReg (fieldX w) (fieldY w)
  | 0x8 => .illegal88toB (bitsXY w) (w.extractLsb' 0 2)
  | 0x9 => .illegal88toB (bitsXY w) (w.extractLsb' 0 2)
  | 0xA => .illegal88toB (bitsXY w) (w.extractLsb' 0 2)
  | 0xB => .illegal88toB (bitsXY w) (w.extractLsb' 0 2)
  | 0xC => .illegal8CtoD (bitsXY w) (w.extractLsb' 0 1)
  | 0xD => .illegal8CtoD (bitsXY w) (w.extractLsb' 0 1)
  | 0xE => .shlReg (fieldX w) (fieldY w)
  | _ => .illegal8F (bitsXY w)   -- 0xF, the only value left of a nibble

/-- `Decode(w)`: a function of the word alone (R74), total (R83). -/
def decodeWord (w : Word) : Instr :=
  match (opClass w).toNat with
  | 0x0 => decodeClass0 w
  | 0x1 => .jp (fieldNNN w)
  | 0x2 => .call (fieldNNN w)
  | 0x3 => .seImm (fieldX w) (fieldNN w)
  | 0x4 => .sneImm (fieldX w) (fieldNN w)
  | 0x5 => .seReg (fieldX w) (fieldY w) (fieldN w)
  | 0x6 => .ldImm (fieldX w) (fieldNN w)
  | 0x7 => .addImm (fieldX w) (fieldNN w)
  | 0x8 => decodeClass8 w
  | 0x9 => .sneReg (fieldX w) (fieldY w) (fieldN w)
  | 0xA => .ldI (fieldNNN w)
  | 0xB => .jpV0 (fieldNNN w)
  | 0xC => .rnd (fieldX w) (fieldNN w)
  | 0xD => .drw (fieldX w) (fieldY w) (fieldN w)
  | _ => .illegalEF (w.extractLsb' 0 13)   -- 0xE and 0xF, the only values left of a nibble

/-- Two bytes as a word, the high byte at the lower address (R53). -/
def wordOfBytes (hi lo : Byte) : Word := hi ++ lo

/-- Why a sequence of bytes holds no instruction. Every word decodes (R83), so the one reason is length (R70). -/
inductive DecodeError where
  /-- Fewer than two bytes. -/
  | truncated
deriving DecidableEq, Repr

/-- The first instruction of a sequence of bytes, and the bytes after it. -/
def decodeBytes : List Byte → Except DecodeError (Instr × List Byte)
  | hi :: lo :: rest => .ok (decodeWord (wordOfBytes hi lo), rest)
  | _ => .error .truncated

/-! ## Encoding (R75, R79) -/

/-- The word of an instruction, each field in the place R72 and R75 give it. -/
def encode : Instr → Word
  | .ret ignored => 0x0#4 ++ (ignored ++ 0xEE#8)
  | .halt ignored nn => 0x0#4 ++ (ignored ++ nn)
  | .jp nnn => 0x1#4 ++ nnn
  | .call nnn => 0x2#4 ++ nnn
  | .seImm x nn => 0x3#4 ++ (regBits x ++ nn)
  | .sneImm x nn => 0x4#4 ++ (regBits x ++ nn)
  | .seReg x y ignored => 0x5#4 ++ (regBits x ++ (regBits y ++ ignored))
  | .ldImm x nn => 0x6#4 ++ (regBits x ++ nn)
  | .addImm x nn => 0x7#4 ++ (regBits x ++ nn)
  | .ldReg x y => 0x8#4 ++ (regBits x ++ (regBits y ++ 0x0#4))
  | .orReg x y => 0x8#4 ++ (regBits x ++ (regBits y ++ 0x1#4))
  | .andReg x y => 0x8#4 ++ (regBits x ++ (regBits y ++ 0x2#4))
  | .xorReg x y => 0x8#4 ++ (regBits x ++ (regBits y ++ 0x3#4))
  | .addReg x y => 0x8#4 ++ (regBits x ++ (regBits y ++ 0x4#4))
  | .subReg x y => 0x8#4 ++ (regBits x ++ (regBits y ++ 0x5#4))
  | .shrReg x y => 0x8#4 ++ (regBits x ++ (regBits y ++ 0x6#4))
  | .subnReg x y => 0x8#4 ++ (regBits x ++ (regBits y ++ 0x7#4))
  | .shlReg x y => 0x8#4 ++ (regBits x ++ (regBits y ++ 0xE#4))
  | .sneReg x y ignored => 0x9#4 ++ (regBits x ++ (regBits y ++ ignored))
  | .ldI nnn => 0xA#4 ++ nnn
  | .jpV0 nnn => 0xB#4 ++ nnn
  | .rnd x nn => 0xC#4 ++ (regBits x ++ nn)
  | .drw x y n => 0xD#4 ++ (regBits x ++ (regBits y ++ n))
  | .illegal88toB xy low => 0x8#4 ++ (xy ++ (0b10#2 ++ low))
  | .illegal8CtoD xy low => 0x8#4 ++ (xy ++ (0b110#3 ++ low))
  | .illegal8F xy => 0x8#4 ++ (xy ++ 0xF#4)
  | .illegalEF low => 0b111#3 ++ low

/-- The two bytes of an instruction in address order, high byte first (R53, R70). -/
def encodeBytes (i : Instr) : List Byte := [(encode i).extractLsb' 8 8, (encode i).extractLsb' 0 8]

/-! ## The opcode table -/

/-- A row of the opcode map: its mnemonic in `spec/opcode_table.json`, its mask and its match (R75, R79). -/
structure OpcodeRow where
  mnemonic : String
  mask : Word
  matchBits : Word
deriving DecidableEq, Repr

/-- Whether a word fits a row: `w & mask = match` (R75). -/
def OpcodeRow.fits (r : OpcodeRow) (w : Word) : Bool := (w &&& r.mask) == r.matchBits

/-- The row an instruction stands for (R75, R79). -/
def rowOf : Instr → OpcodeRow
  | .ret _ => ⟨"RET", 0xF0FF, 0x00EE⟩
  | .halt _ _ => ⟨"HALT", 0xF000, 0x0000⟩
  | .jp _ => ⟨"JP_NNN", 0xF000, 0x1000⟩
  | .call _ => ⟨"CALL_NNN", 0xF000, 0x2000⟩
  | .seImm _ _ => ⟨"SE_Vx__NN", 0xF000, 0x3000⟩
  | .sneImm _ _ => ⟨"SNE_Vx__NN", 0xF000, 0x4000⟩
  | .seReg _ _ _ => ⟨"SE_Vx__Vy", 0xF000, 0x5000⟩
  | .ldImm _ _ => ⟨"LD_Vx__NN", 0xF000, 0x6000⟩
  | .addImm _ _ => ⟨"ADD_Vx__NN", 0xF000, 0x7000⟩
  | .ldReg _ _ => ⟨"LD_Vx__Vy", 0xF00F, 0x8000⟩
  | .orReg _ _ => ⟨"OR_Vx__Vy", 0xF00F, 0x8001⟩
  | .andReg _ _ => ⟨"AND_Vx__Vy", 0xF00F, 0x8002⟩
  | .xorReg _ _ => ⟨"XOR_Vx__Vy", 0xF00F, 0x8003⟩
  | .addReg _ _ => ⟨"ADD_Vx__Vy", 0xF00F, 0x8004⟩
  | .subReg _ _ => ⟨"SUB_Vx__Vy", 0xF00F, 0x8005⟩
  | .shrReg _ _ => ⟨"SHR_Vx__Vy", 0xF00F, 0x8006⟩
  | .subnReg _ _ => ⟨"SUBN_Vx__Vy", 0xF00F, 0x8007⟩
  | .shlReg _ _ => ⟨"SHL_Vx__Vy", 0xF00F, 0x800E⟩
  | .sneReg _ _ _ => ⟨"SNE_Vx__Vy", 0xF000, 0x9000⟩
  | .ldI _ => ⟨"LD_I__NNN", 0xF000, 0xA000⟩
  | .jpV0 _ => ⟨"JP_V0__NNN", 0xF000, 0xB000⟩
  | .rnd _ _ => ⟨"RND_Vx__NN", 0xF000, 0xC000⟩
  | .drw _ _ _ => ⟨"DRW_Vx__Vy__N", 0xF000, 0xD000⟩
  | .illegal88toB _ _ => ⟨"ILLEGAL.8_8toB", 0xF00C, 0x8008⟩
  | .illegal8CtoD _ _ => ⟨"ILLEGAL.8_CtoD", 0xF00E, 0x800C⟩
  | .illegal8F _ => ⟨"ILLEGAL.8_F", 0xF00F, 0x800F⟩
  | .illegalEF _ => ⟨"ILLEGAL.EF", 0xE000, 0xE000⟩

/-- One instruction of each row, in the table's priority order, all operands 0. -/
def rowSamples : List Instr :=
  [.ret 0, .halt 0 0, .jp 0, .call 0, .seImm 0 0, .sneImm 0 0, .seReg 0 0 0, .ldImm 0 0, .addImm 0 0]
  ++ [.ldReg 0 0, .orReg 0 0, .andReg 0 0, .xorReg 0 0, .addReg 0 0, .subReg 0 0, .shrReg 0 0, .subnReg 0 0, .shlReg 0 0]
  ++ [.sneReg 0 0 0, .ldI 0, .jpV0 0, .rnd 0 0, .drw 0 0 0]
  ++ [.illegal88toB 0 0, .illegal8CtoD 0 0, .illegal8F 0, .illegalEF 0]

/-- The opcode table: the 27 rows in priority order (R75, R79). -/
def opcodeTable : List OpcodeRow := rowSamples.map rowOf

/-! ## The host's numbering of a row's word -/

/-- The word whose bits the host numbers from the least significant bit of the (only) word: the bits of `w`
above `nbits` are 0. -/
def tableWord (nbits w : Nat) : Word := BitVec.ofNat 16 (w % 2 ^ nbits)

/-- That word as the hardware stores it, high byte at the lower address (R53). -/
def tableBytes (nbits w : Nat) : List Byte :=
  [(tableWord nbits w).extractLsb' 8 8, (tableWord nbits w).extractLsb' 0 8]

/-- The instruction the decoder reads from the table word `w`. -/
def decodeTableWord (nbits w : Nat) : Option Instr :=
  match decodeBytes (tableBytes nbits w) with
  | .ok (i, _) => some i
  | .error _ => none

end Sys2Proof
end

