-- ==== Sys2Proof/Config.lean ====
section
/-! DEFINITION. What is fixed for one machine: the literal sizes of R5, and the four parameters R5 leaves open.
Each open parameter is an `opaque` constant: nothing can evaluate it, and a claim holds whatever it is (log 7). -/

namespace Sys2Proof.Config

/-- `MEM_SIZE`: 4096 bytes (R5). -/
abbrev memSize : Nat := 4096

/-- `PROG_BASE`: 0x200 (R5). -/
abbrev progBase : Nat := 0x200

/-- The longest program Load accepts: 4096 - 0x200 = 3584 bytes (R59). -/
abbrev maxProgram : Nat := 3584

/-- `STACK_DEPTH`: 16 entries (R5). -/
abbrev stackDepth : Nat := 16

/-- `DISP_W`: 64 columns (R5). -/
abbrev dispW : Nat := 64

/-- `DISP_H`: 32 rows (R5). -/
abbrev dispH : Nat := 32

/-- `FLAG_REG`: register 15, `VF` (R5, R22). -/
abbrev flagReg : Reg := 15

/-- `SEED_INIT` (R36, D13): an open parameter; it must not be fixed to zero or to any constant. -/
opaque seedInit : Seed

/-- `PRNG_BYTE` (R151, D12): the byte one invocation draws, a function of the seed and of nothing else. -/
opaque prngByte : Seed → Byte

/-- `PRNG_RESEED` (R151, D12): the seed one invocation leaves, a function of the seed and of nothing else. -/
opaque prngReseed : Seed → Seed

/-- `DRW_CLEARS_VF` (R163, D9): whether a draw whose resulting cells are all true writes `VF <- 0`. The spec
recommends `false` and leaves the parameter open, so nothing here rests on either value. -/
opaque drwClearsVf : Bool

end Sys2Proof.Config
end

