-- ==== Sys2Proof/Machine/State.lean ====
section
/-! DEFINITION. The complete state of the machine: the nine items of R20 and nothing else, as plain data; the
reasons a step can end without a next state; the state after Reset (R36, R210). -/

namespace Sys2Proof.Machine

/-- `MEM` (R30): 4096 byte cells as a list of the cells that are not zero, addresses strictly rising. An address
that is not listed reads 0x00, the reset contents of every cell (R36, log 1). -/
abbrev Memory := List Host.Cell

/-- `DISPLAY` (R29): 64 columns of 32 Boolean cells, addressed `[x][y]`. -/
abbrev Display := Vector (Vector Bool 32) 64

/-- Why the machine halted: "clean termination, not a fault" (R31, R180). -/
inductive HaltReason where
  /-- `PC >= 4096` at the start of a step (R91). -/
  | endOfMemory
  /-- A `HALT` word was dispatched (R96). -/
  | unknownMiscOpcode
deriving DecidableEq, Repr

/-- Why the machine faulted: a fatal condition (R31, R181). -/
inductive FaultReason where
  /-- An illegal word was dispatched (R97). -/
  | unimplementedOpcode
  /-- `CALL` at `SP = 16` (R131). -/
  | stackOverflow
  /-- `RET` at `SP = 0` (R132). -/
  | stackUnderflow
  /-- `PC = 4095` at the start of a step (R92). -/
  | fetchOutOfRange
  /-- `DRW` with `N > 0` and `I + N > 4096` (R162). -/
  | spriteReadOutOfRange
  /-- `DRW` with `N > 0` and a cell outside the grid (R162). -/
  | displayOutOfRange
deriving DecidableEq, Repr

/-- `STATUS` (R31): whether the machine may step and, if not, why it stopped. `addr` is the address the offending
word was fetched from; `word` is that word, absent where no whole word exists. -/
inductive Status where
  | running
  | halted (reason : HaltReason)
  | faulted (reason : FaultReason) (addr : Word) (word : Option Word)
deriving DecidableEq, Repr

/-- The state of the machine (R20). -/
structure State where
  /-- `MEM` (R30). -/
  mem : Memory
  /-- `V[0]` to `V[15]`; `V[15]` is `VF` (R21, R22). -/
  v : Vector Byte 16
  /-- `I` (R23). -/
  i : Word
  /-- `PC` (R24). -/
  pc : Word
  /-- `STACK[0]` to `STACK[15]`, reached by no memory address (R26). -/
  stack : Vector Word 16
  /-- `SP`, 0 to 16: the number of occupied slots (R27). -/
  sp : Fin 17
  /-- `SEED` (R28). -/
  seed : Seed
  /-- `DISPLAY` (R29). -/
  display : Display
  /-- `STATUS` (R31). -/
  status : Status
deriving DecidableEq, Repr

/-- Why `step` ends without a next state. The spec's own faults are not here: they are recorded in `STATUS`, in
a next state (R185, log 3). -/
inductive Fault where
  /-- Raised by `step` alone, when `STATUS` is not `Running`: "a halted or faulted machine takes no further step"
  (R7, R90, R100, R219). Safe: the machine does nothing there, and neither does the model (log 2). -/
  | notRunning
deriving DecidableEq, Repr

/-- Why the model gives an instruction no meaning. -/
inductive Refusal where
  /-- An instruction that has no meaning yet, by its row's mnemonic. Every instruction has one, so nothing raises
  it. Safe. -/
  | notModelled (mnemonic : String)
deriving DecidableEq, Repr

/-- `Reset(seed_init)` (R210): the value of every item, whatever the state before (R36, R211). -/
def State.resetWith (seedInit : Seed) : State where
  mem := []
  v := Vector.replicate 16 0
  i := 0
  pc := 0x0200
  stack := Vector.replicate 16 0
  sp := 0
  seed := seedInit
  display := Vector.replicate 64 (Vector.replicate 32 false)
  status := .running

/-- The machine right after Reset, with the open parameter `SEED_INIT` as its seed (R36). -/
def State.reset : State := State.resetWith Config.seedInit

end Sys2Proof.Machine
end

