-- ==== Sys2Proof/Machine/Memory.lean ====
section
/-! DEFINITION. Reading and writing `MEM`: one byte, the canonical form, `MemRead` of one and of two bytes (R52,
R53), and the host's copy of a byte buffer (R59). No instruction writes memory (R58). -/

namespace Sys2Proof.Machine

/-- What an address that is not listed reads as: every byte is 0x00 after Reset (R36, log 1). -/
def unlistedByte : Byte := 0x00

/-- `MemRead(addr, 1)` (R52). Its every use is preceded by the check that the address is below 4096, so its value
on other addresses is never used (R52, U16, log 9). -/
def Memory.read : Memory → Nat → Byte
  | [], _ => unlistedByte
  | (k, b) :: rest, a => if a = k then b else Memory.read rest a

/-- The list with the cell `a` holding `b`, kept sorted and without a cell that holds the unlisted value. -/
def Memory.put : Memory → Nat → Byte → Memory
  | [], a, b => if b = unlistedByte then [] else [(a, b)]
  | (k, c) :: rest, a, b =>
    if a < k then (if b = unlistedByte then (k, c) :: rest else (a, b) :: (k, c) :: rest)
    else if a = k then (if b = unlistedByte then rest else (a, b) :: rest)
    else (k, c) :: Memory.put rest a b

/-- `MemWrite(addr, 1, b)` (R9, R59). An address of 4096 or more names no cell (R50), so nothing is written there;
no caller gives one (log 9). -/
def Memory.write (m : Memory) (a : Nat) (b : Byte) : Memory :=
  if a < Config.memSize then m.put a b else m

/-- The canonical form: addresses strictly rising and below 4096, no cell holding the unlisted value. -/
abbrev Memory.wf (m : Memory) : Prop :=
  m.Pairwise (fun c d => c.1 < d.1) ∧ ∀ c ∈ m, c.1 < Config.memSize ∧ c.2 ≠ unlistedByte

/-- `MemRead(addr, 2)`: the byte at the lower address is the high byte (R52, R53). -/
def Memory.readWord (m : Memory) (a : Nat) : Word := m.read a ++ m.read (a + 1)

/-- A sequence of bytes copied to rising addresses from `a` (R59). -/
def Memory.writeBytes (m : Memory) (a : Nat) : List Byte → Memory
  | [] => m
  | b :: rest => Memory.writeBytes (m.write a b) (a + 1) rest

end Sys2Proof.Machine
end

