-- ==== Sys2Proof/Machine/Ops.lean ====
section
/-! DEFINITION. The named operations over registers, stack and display that every meaning is written with, and
stopping the machine: this machine's whole trap mechanism (R180, R185). -/

namespace Sys2Proof.Machine

/-- What executing an instruction answers. -/
abbrev Result := Host.Outcome State Fault Refusal

/-! ## Registers -/

/-- `V[r]` (R9, R21). -/
def State.getV (s : State) (r : Reg) : Byte := s.v[r]

/-- `V[r] <- b` (R9, R21): no register is hard-wired. -/
def State.setV (s : State) (r : Reg) (b : Byte) : State := { s with v := s.v.set r b }

/-- `VF <- b` (R22). -/
def State.setVF (s : State) (b : Byte) : State := s.setV Config.flagReg b

/-- `PC <- w` (R9, R141). -/
def State.setPC (s : State) (w : Word) : State := { s with pc := w }

/-- `I <- w` (R9, R123). -/
def State.setI (s : State) (w : Word) : State := { s with i := w }

/-- `SEED <- sd`, all 256 bits at once (R28). -/
def State.setSeed (s : State) (sd : Seed) : State := { s with seed := sd }

/-- Result first, flag second: with `X = 15` the flag is what remains (R111). -/
def State.setResultThenFlag (s : State) (x : Reg) (result flag : Byte) : State :=
  (s.setV x result).setVF flag

/-- `PC <- PC + 2`: the loop's advance (R94) and a taken skip's extra 2 (R138). -/
def State.advancePC (s : State) : State := s.setPC (s.pc + 2)

/-- A skip (R138): 2 more if the condition holds, nothing otherwise. -/
def State.skipIf (s : State) (cond : Bool) : State := if cond then s.advancePC else s

/-! ## The call stack (R26, R27) -/

/-- `STACK[SP] <- w`, then `SP <- SP + 1`; nothing at `SP = 16` (R131). -/
def State.push (s : State) (w : Word) : Option State :=
  if h : s.sp.val < Config.stackDepth then
    some { s with stack := s.stack.set s.sp.val w h, sp := ⟨s.sp.val + 1, Nat.succ_lt_succ h⟩ }
  else none

/-- `SP <- SP - 1`, the slot's entry, and the slot set to 0; nothing at `SP = 0` (R132). -/
def State.pop (s : State) : Option (Word × State) :=
  match s.sp with
  | ⟨0, _⟩ => none
  | ⟨k + 1, h⟩ =>
    have hk : k < 16 := Nat.lt_of_succ_lt_succ h
    some (s.stack[k], { s with stack := s.stack.set k 0 hk, sp := ⟨k, Nat.lt_of_succ_lt h⟩ })

/-! ## The display grid (R29)

`DRW` touches only cells it has checked to be in range (R162); the value on other coordinates is never used and a
write there is never asked for (log 15). -/

/-- `DISPLAY[x][y]` (R9). -/
def Display.read (d : Display) (x y : Nat) : Bool :=
  if h : x < Config.dispW ∧ y < Config.dispH then (d[x]'h.1)[y]'h.2 else false

/-- `DISPLAY[x][y] <- b` (R9). -/
def Display.write (d : Display) (x y : Nat) (b : Bool) : Display :=
  if h : x < Config.dispW ∧ y < Config.dispH then d.set x ((d[x]'h.1).set y b h.2) h.1 else d

/-! ## Stopping (R185)

A stop writes `STATUS` and nothing else, saves nothing and transfers control nowhere (R185). There is no return
from a stop: only Reset makes a stopped machine `Running` again (R100, R186), and Reset is `State.resetWith`. -/

/-- `STATUS <- st` and nothing else: the one way a step stops the machine (R185). -/
def State.stop (s : State) (st : Status) : State := { s with status := st }

/-- `halt H` (R9, R185). -/
def halt (reason : HaltReason) (s : State) : Result := .next (s.stop (.halted reason))

/-- `raise F(addr, word)` (R9, R185). -/
def raise (reason : FaultReason) (addr : Word) (word : Option Word) (s : State) : Result :=
  .next (s.stop (.faulted reason addr word))

/-- `a`, the address the executing word was fetched from: on entry to every instruction rule `PC = a + 2` (R9, R94). -/
def State.fetchedFrom (s : State) : Word := s.pc - 2

/-- `raise F(a, w)` from within the rule of the instruction `i`: `w` is the word of `i` (log 5). -/
def raiseHere (reason : FaultReason) (i : Instr) (s : State) : Result :=
  raise reason s.fetchedFrom (some (encode i)) s

end Sys2Proof.Machine
end

