-- ==== Sys2Proof/Machine/Operands.lean ====
section
/-! DEFINITION. The operand forms: registers, immediates and the sampled operands of `DRW` (R73, R161). -/

namespace Sys2Proof.Machine

/-- The operand `NN`: the field's bits, unsigned, no extension (R73). -/
def immByte (nn : Byte) : Byte := nn

/-- The operand `NNN`: `zext_16(NNN)` (R73). -/
def immAddr (nnn : Addr12) : Word := zext16 nnn

/-- The offset target `zext_16(NNN) + zext_16(V[0])`: at most 0x10FE, no mask, no wrap (R133). -/
def offsetTarget (nnn : Addr12) (s : State) : Word := zext16 nnn + (s.getV 0).setWidth 16

/-- What `DRW` samples once, before any write, as unbounded numbers: start column, start row, row count and the
address of the first sprite byte (R161, R165). -/
structure DrawOperands where
  x0 : Nat
  y0 : Nat
  n : Nat
  base : Nat
deriving DecidableEq, Repr

/-- `x0 <- V[X]; y0 <- V[Y]; n <- N; base <- I` (R161). -/
def drawOperands (x y : Reg) (n : Nibble) (s : State) : DrawOperands where
  x0 := (s.getV x).toNat
  y0 := (s.getV y).toNat
  n := n.toNat
  base := s.i.toNat

/-- `n > 0 and base + n > 4096`: some row byte would lie above 0xFFF (R162). -/
def DrawOperands.readsOutOfRange (o : DrawOperands) : Bool :=
  0 < o.n && Config.memSize < o.base + o.n

/-- `n > 0 and (x0 + 8*n > 64 or y0 + n > 32)`: some cell would lie outside the grid (R162). -/
def DrawOperands.drawsOutOfRange (o : DrawOperands) : Bool :=
  0 < o.n && (Config.dispW < o.x0 + 8 * o.n || Config.dispH < o.y0 + o.n)

end Sys2Proof.Machine
end

