-- ==== Sys2Proof/Machine/Flags.lean ====
section
/-! DEFINITION. Every value written to `VF` as a flag (R22), each computed from the operands before the operation,
as unbounded integers (R110). -/

namespace Sys2Proof.Machine

/-- A flag's value, 1 or 0. -/
def flagOf (cond : Bool) : Byte := if cond then 1 else 0

/-- `ADD Vx, Vy`: 1 if `x + y > 255`, the sum needing 9 bits (R118). -/
def carryFlag (x y : Byte) : Byte := flagOf (decide (x.toNat + y.toNat > 255))

/-- `SUB` and `SUBN`: 1 if minuend > subtrahend, strictly; equal operands give 0 (R119, R121). -/
def greaterFlag (minuend subtrahend : Byte) : Byte := flagOf (decide (minuend.toNat > subtrahend.toNat))

/-- `SHR`: bit 0 of the source (R120). -/
def lowBitFlag (y : Byte) : Byte := y &&& 1

/-- `SHL`: bit 7 of the source (R122). -/
def highBitFlag (y : Byte) : Byte := (y >>> 7) &&& 1

/-- `DRW`: 1 if any resulting cell is false; otherwise 0 if the machine clears `VF`, else the old value (R161, R163). -/
def drawFlag (anyFalse clearsVF : Bool) (old : Byte) : Byte :=
  if anyFalse then 1 else if clearsVF then 0 else old

end Sys2Proof.Machine
end

