-- ==== Sys2Proof/Machine/Alu.lean ====
section
/-! DEFINITION. Register loads, the register ALU and the index load (R110 to R125). Operands are sampled before any
write (R110); every result wraps modulo 256 (R110); `PC` is not touched; nothing here can stop the machine (R182). -/

namespace Sys2Proof.Machine

/-- `LD Vx, NN`: `V[X] <- NN` (R112). -/
def execLdImm (x : Reg) (nn : Byte) (s : State) : Result := .next (s.setV x (immByte nn))

/-- `ADD Vx, NN`: `V[X] <- (V[X] + NN) mod 256`; no flag (R113). -/
def execAddImm (x : Reg) (nn : Byte) (s : State) : Result := .next (s.setV x (s.getV x + immByte nn))

/-- `LD Vx, Vy`: `V[X] <- V[Y]` (R114). -/
def execLdReg (x y : Reg) (s : State) : Result := .next (s.setV x (s.getV y))

/-- `OR Vx, Vy`; no flag (R115). -/
def execOrReg (x y : Reg) (s : State) : Result := .next (s.setV x (s.getV x ||| s.getV y))

/-- `AND Vx, Vy`; no flag (R116). -/
def execAndReg (x y : Reg) (s : State) : Result := .next (s.setV x (s.getV x &&& s.getV y))

/-- `XOR Vx, Vy`; no flag (R117). -/
def execXorReg (x y : Reg) (s : State) : Result := .next (s.setV x (s.getV x ^^^ s.getV y))

/-- `ADD Vx, Vy`: the sum mod 256, then the carry (R118). -/
def execAddReg (x y : Reg) (s : State) : Result :=
  .next (s.setResultThenFlag x (s.getV x + s.getV y) (carryFlag (s.getV x) (s.getV y)))

/-- `SUB Vx, Vy`: `V[X] - V[Y]` mod 256, then 1 iff `V[X] > V[Y]` (R119). -/
def execSubReg (x y : Reg) (s : State) : Result :=
  .next (s.setResultThenFlag x (s.getV x - s.getV y) (greaterFlag (s.getV x) (s.getV y)))

/-- `SHR Vx, Vy`: `V[Y] >> 1`, then the bit shifted out; the old `V[X]` is not used (R120). -/
def execShrReg (x y : Reg) (s : State) : Result :=
  .next (s.setResultThenFlag x (s.getV y >>> 1) (lowBitFlag (s.getV y)))

/-- `SUBN Vx, Vy`: `V[Y] - V[X]` mod 256, then 1 iff `V[Y] > V[X]` (R121). -/
def execSubnReg (x y : Reg) (s : State) : Result :=
  .next (s.setResultThenFlag x (s.getV y - s.getV x) (greaterFlag (s.getV y) (s.getV x)))

/-- `SHL Vx, Vy`: `(V[Y] << 1) mod 256`, then the bit shifted out; the old `V[X]` is not used (R122). -/
def execShlReg (x y : Reg) (s : State) : Result :=
  .next (s.setResultThenFlag x (s.getV y <<< 1) (highBitFlag (s.getV y)))

/-- `LD I, NNN`: `I <- zext_16(NNN)` (R123). -/
def execLdI (nnn : Addr12) (s : State) : Result := .next (s.setI (immAddr nnn))

end Sys2Proof.Machine
end

