-- ==== Sys2Proof/Machine/Control.lean ====
section
/-! DEFINITION. Jumps, call and return, and the four skips (R130 to R141). On entry `PC = a + 2` (R94). -/

namespace Sys2Proof.Machine

/-- `JP NNN`: `PC <- zext_16(NNN)` (R130). -/
def execJp (nnn : Addr12) (s : State) : Result := .next (s.setPC (immAddr nnn))

/-- `JP V0, NNN`: `PC <- zext_16(NNN) + zext_16(V[0])`, not masked (R133). -/
def execJpV0 (nnn : Addr12) (s : State) : Result := .next (s.setPC (offsetTarget nnn s))

/-- `CALL NNN` (R131): the check comes before any write; the pushed value is the already advanced `PC`. -/
def execCall (nnn : Addr12) (s : State) : Result :=
  match s.push s.pc with
  | none => raiseHere .stackOverflow (.call nnn) s
  | some s' => .next (s'.setPC (immAddr nnn))

/-- `RET` (R132): the check comes before any write; the vacated slot is set to 0. -/
def execRet (ignored : Nibble) (s : State) : Result :=
  match s.pop with
  | none => raiseHere .stackUnderflow (.ret ignored) s
  | some (target, s') => .next (s'.setPC target)

/-- `SE Vx, NN` (R134). -/
def execSeImm (x : Reg) (nn : Byte) (s : State) : Result := .next (s.skipIf (s.getV x == immByte nn))

/-- `SNE Vx, NN` (R135). -/
def execSneImm (x : Reg) (nn : Byte) (s : State) : Result := .next (s.skipIf (s.getV x != immByte nn))

/-- `SE Vx, Vy`; the low nibble is ignored (R78, R136). -/
def execSeReg (x y : Reg) (_ignored : Nibble) (s : State) : Result := .next (s.skipIf (s.getV x == s.getV y))

/-- `SNE Vx, Vy`; the low nibble is ignored (R78, R137). -/
def execSneReg (x y : Reg) (_ignored : Nibble) (s : State) : Result := .next (s.skipIf (s.getV x != s.getV y))

end Sys2Proof.Machine
end

