-- ==== Sys2Proof/Machine/Draw.lean ====
section
/-! DEFINITION. The sprite XOR compositor and `DRW` (R160 to R168). The cursor that is not reset between rows (R164)
and the flag set by any false resulting cell (R163) are the document's explicit instructions, kept literally. -/

namespace Sys2Proof.Machine

/-- What a draw in progress holds: the grid, whether any resulting cell was false, and the horizontal cursor. It is
local to one `DRW` and no state of the machine (R164). -/
structure Blit where
  grid : Display
  anyFalse : Bool
  cx : Nat
deriving DecidableEq, Repr

/-- Sprite bit `k` of a row byte, 0 the most significant: `(b >> (7 - k)) & 1` (R161). -/
def spriteBit (b : Byte) (k : Nat) : Bool := (b >>> (7 - k)) &&& 1 == 1

/-- The eight bits of a row byte, most significant first (R161). -/
def spriteBits (b : Byte) : List Bool := (List.range 8).map (spriteBit b)

/-- One bit: the cell under the cursor becomes its exclusive-or with the bit, a false result is noted, and the
cursor moves one column on (R161). -/
def Blit.bit (p : Blit) (y : Nat) (bit : Bool) : Blit :=
  let new := xor (p.grid.read p.cx y) bit
  { grid := p.grid.write p.cx y new, anyFalse := p.anyFalse || !new, cx := p.cx + 1 }

/-- A run of bits on the grid row `y`. -/
def Blit.bits (y : Nat) : List Bool → Blit → Blit
  | [], p => p
  | b :: rest, p => Blit.bits y rest (p.bit y b)

/-- `n` sprite rows, bytes from the address `addr` on, grid rows from `y` on; the cursor goes on from row to row
(R161, R164). -/
def Blit.rows (mem : Memory) : Nat → Nat → Nat → Blit → Blit
  | _, _, 0, p => p
  | addr, y, n + 1, p => Blit.rows mem (addr + 1) (y + 1) n (Blit.bits y (spriteBits (mem.read addr)) p)

/-- The whole composite of sampled operands onto the grid (R161). -/
def composite (o : DrawOperands) (s : State) : Blit :=
  Blit.rows s.mem o.base o.y0 o.n { grid := s.display, anyFalse := false, cx := o.x0 }

/-- The state after the composite and the flag, written last (R161). `clearsVF` is `DRW_CLEARS_VF` (R163). -/
def drawOnto (clearsVF : Bool) (o : DrawOperands) (s : State) : State :=
  let p := composite o s
  { s with display := p.grid }.setVF (drawFlag p.anyFalse clearsVF (s.getV Config.flagReg))

/-- `DRW Vx, Vy, N` for either value of `DRW_CLEARS_VF`: the memory bound first, then the grid's, both before any
write (R161, R162, R183). -/
def execDrwWith (clearsVF : Bool) (x y : Reg) (n : Nibble) (s : State) : Result :=
  let o := drawOperands x y n s
  if o.readsOutOfRange then raiseHere .spriteReadOutOfRange (.drw x y n) s
  else if o.drawsOutOfRange then raiseHere .displayOutOfRange (.drw x y n) s
  else .next (drawOnto clearsVF o s)

/-- `DRW Vx, Vy, N` (R161). -/
def execDrw (x y : Reg) (n : Nibble) (s : State) : Result := execDrwWith Config.drwClearsVf x y n s

end Sys2Proof.Machine
end

