-- ==== Sys2Proof/Machine/Prng.lean ====
section
/-! DEFINITION. `RND` (R150 to R154), over the two uninterpreted functions of the seed (R151). -/

namespace Sys2Proof.Machine

/-- `RND Vx, NN`: `V[X] <- PRNG_BYTE(SEED) & NN`, `SEED <- PRNG_RESEED(SEED)`, whatever the mask (R152). -/
def execRnd (x : Reg) (nn : Byte) (s : State) : Result :=
  .next ((s.setV x (Config.prngByte s.seed &&& immByte nn)).setSeed (Config.prngReseed s.seed))

end Sys2Proof.Machine
end

