-- ==== Sys2Proof/Machine/Stops.lean ====
section
/-! DEFINITION. The two outcomes of dispatch that are not handlers: the sentinel `HALT` (R96) and the four rows of
illegal words (R97). On entry `PC = a + 2` (R94). -/

namespace Sys2Proof.Machine

/-- `HALT` (R96). -/
def execHalt (_ignored : Nibble) (_nn : Byte) (s : State) : Result := halt .unknownMiscOpcode s

/-- An illegal word (R97): the fault is the dispatch failure itself. -/
def raiseUnimplemented (i : Instr) (s : State) : Result := raiseHere .unimplementedOpcode i s

/-- 0x8XYN, `N` in 8 to B (R79, R97). -/
def execIllegal88toB (xy : Byte) (low : BitVec 2) (s : State) : Result :=
  raiseUnimplemented (.illegal88toB xy low) s

/-- 0x8XYN, `N` in C, D (R79, R97). -/
def execIllegal8CtoD (xy : Byte) (low : BitVec 1) (s : State) : Result :=
  raiseUnimplemented (.illegal8CtoD xy low) s

/-- 0x8XYF (R79, R97). -/
def execIllegal8F (xy : Byte) (s : State) : Result := raiseUnimplemented (.illegal8F xy) s

/-- Classes E and F (R79, R97). -/
def execIllegalEF (low : BitVec 13) (s : State) : Result := raiseUnimplemented (.illegalEF low) s

end Sys2Proof.Machine
end

