-- ==== Sys2Proof/Machine/Loop.lean ====
section
/-! DEFINITION. The stages of one step (R90): range check, fetch, decode, advance, dispatch. -/

namespace Sys2Proof.Machine

/-- Stage 2's read: the two bytes at `PC`, high byte first (R92, R53). -/
def fetchWord (s : State) : Word := s.mem.readWord s.pc.toNat

/-- Stages 3 to 6 at a `PC` whose two bytes exist: decode, advance by 2 before dispatch, run one handler (R93 to R95). -/
def runFetched (s : State) : Result := exec (decodeWord (fetchWord s)) s.advancePC

/-- `Step()` of a running machine (R90): `PC >= 4096` halts (R91), `PC = 4095` faults before any read (R92), both
leaving `PC`. -/
def runningStep (s : State) : Result :=
  if s.pc.toNat ≥ Config.memSize then halt .endOfMemory s
  else if s.pc.toNat = Config.memSize - 1 then raise .fetchOutOfRange s.pc none s
  else runFetched s

/-- One step of the machine, defined only when `STATUS = Running` (R90, R100; log 2). -/
def loopStep (s : State) : Result :=
  match s.status with
  | .running => runningStep s
  | .halted _ => .fault .notRunning
  | .faulted _ _ _ => .fault .notRunning

/-- Two bytes placed where the next fetch reads, high byte first (R53, R92). -/
def placeWord (s : State) (w : Word) : State :=
  { s with mem := s.mem.writeBytes s.pc.toNat [w.extractLsb' 8 8, w.extractLsb' 0 8] }

end Sys2Proof.Machine
end

