-- ==== Sys2Proof/Machine/Step.lean ====
section
/-! DEFINITION. One step, and the state whose next step runs a given table word. -/

namespace Sys2Proof.Machine

/-- One step of the machine (R90): `loopStep`. -/
def step (s : State) : Host.Outcome State Fault Refusal := loopStep s

/-- `s` with the table word `w` of `nbits` bits stored at `PC`, where the next fetch reads (log 10). -/
def State.withFetchWord (s : State) (nbits w : Nat) : State := placeWord s (tableWord nbits w)

end Sys2Proof.Machine
end

