-- ==== Sys2Proof/Machine/HostOps.lean ====
section
/-! DEFINITION. The host's operations at the boundary: Reset, Load, Step, Run, Inspect (R215), and the ports of the
pin-level rendering (R216). What the host has done since Reset is no state of the machine (R20): it is kept beside
the machine, in a session (log 11). -/

namespace Sys2Proof.Machine

/-- What the host has done since Reset (R59, R212). -/
inductive HostPhase where
  /-- Nothing: Load may be done (R59). -/
  | fresh
  /-- A Load was done and no step was taken. -/
  | loaded
  /-- A step was taken. -/
  | stepped
deriving DecidableEq, Repr

/-- A machine and what the host has done with it since Reset. -/
structure HostSession where
  core : State
  phase : HostPhase
deriving DecidableEq, Repr

/-- `Reset(seed_init)`, allowed in any state; its result does not depend on the state before (R210, R211). -/
def HostSession.reset (_before : HostSession) (seedInit : Seed) : HostSession :=
  { core := State.resetWith seedInit, phase := .fresh }

/-- The copy Load makes: the bytes verbatim from 0x200 on, and nothing else (R59). -/
def State.loadBytes (s : State) (buf : List Byte) : State :=
  { s with mem := s.mem.writeBytes Config.progBase buf }

/-- `Load(buf)` (R59): after Reset, before the first step, at most once, at most 3584 bytes; otherwise it is refused
and nothing changes (D26). -/
def HostSession.load (h : HostSession) (buf : List Byte) : Option HostSession :=
  if h.phase = .fresh ∧ h.core.status = .running ∧ buf.length ≤ Config.maxProgram then
    some { core := h.core.loadBytes buf, phase := .loaded }
  else none

/-- `Step()` by the host (R98, R215): a move it has only when the machine is running. -/
def HostSession.step (h : HostSession) : Option HostSession :=
  match Sys2Proof.Machine.step h.core with
  | .next s => some { core := s, phase := .stepped }
  | .fault _ => none
  | .refused _ => none

/-- `Run()` (R98): `while STATUS = Running: Step()`, for at most the given number of steps, since a run need not
return (log 16). -/
def run : Nat → State → State
  | 0, s => s
  | k + 1, s =>
    match Sys2Proof.Machine.step s with
    | .next s' => run k s'
    | .fault _ => s
    | .refused _ => s

/-- What the host can inspect, between steps or after a stop (R215). `SEED` and `MEM` are not in the list. -/
structure Inspection where
  v : Vector Byte 16
  i : Word
  pc : Word
  stack : Vector Word 16
  sp : Fin 17
  display : Display
  status : Status
deriving DecidableEq, Repr

/-- `Inspect` (R195, R215): it reads and changes nothing. -/
def State.inspect (s : State) : Inspection where
  v := s.v
  i := s.i
  pc := s.pc
  stack := s.stack
  sp := s.sp
  display := s.display
  status := s.status

/-! ## The ports of the pin-level rendering (R216) -/

/-- The code of a halt (R181). -/
def HaltReason.code : HaltReason → BitVec 4
  | .endOfMemory => 1
  | .unknownMiscOpcode => 2

/-- The code of a fault (R181). -/
def FaultReason.code : FaultReason → BitVec 4
  | .unimplementedOpcode => 3
  | .stackOverflow => 4
  | .stackUnderflow => 5
  | .fetchOutOfRange => 6
  | .spriteReadOutOfRange => 7
  | .displayOutOfRange => 8

/-- `STATUS_CODE`, the `status[3:0]` port (R181, R216). -/
def Status.code : Status → BitVec 4
  | .running => 0
  | .halted r => r.code
  | .faulted r _ _ => r.code

/-- The `fault_addr` port: the recorded address; the spec gives it no value without a fault (R216, log 12). -/
def Status.faultAddr : Status → Option Word
  | .running => none
  | .halted _ => none
  | .faulted _ addr _ => some addr

/-- The `fault_word` port: the recorded word; the spec gives it no value where none is recorded (R216, log 12). -/
def Status.faultWord : Status → Option Word
  | .running => none
  | .halted _ => none
  | .faulted _ _ word => word

/-- The `fault_word_valid` port: whether a word is recorded (R31, R216). -/
def Status.faultWordValid (st : Status) : Bool := st.faultWord.isSome

/-- One byte through the write port `ld_en`, `ld_addr`, `ld_data`: honoured only while no step was taken since
Reset and only from 0x200 on (R216). -/
def HostSession.portWrite (h : HostSession) (addr : Addr12) (data : Byte) : HostSession :=
  if h.phase ≠ .stepped ∧ Config.progBase ≤ addr.toNat then
    { core := { h.core with mem := h.core.mem.write addr.toNat data }, phase := .loaded }
  else h

/-- `go` asserted for one step: the core steps if `STATUS = Running` and otherwise holds its state (R196, R216). -/
def HostSession.portGo (h : HostSession) : HostSession := h.step.getD h

end Sys2Proof.Machine
end

