-- ==== Sys2Proof/Safety.lean ====
section
/-! DEFINITION. The terms claims are stated in: how a run ends (R101), what a step leaves unchanged, the launch
predicate (R214), the invariants of reachable states (R221), the instruction the next step executes. -/

namespace Sys2Proof.Machine

/-! ## How a run ends (R101) -/

/-- A run has ended. -/
def State.Ended (s : State) : Prop := s.status ≠ .running

/-- A run has ended well: in one of the two clean halts. -/
def State.EndedWell (s : State) : Prop :=
  s.status = .halted .endOfMemory ∨ s.status = .halted .unknownMiscOpcode

/-- A run has ended badly: in a fault. -/
def State.EndedBadly (s : State) : Prop := ∃ reason addr word, s.status = .faulted reason addr word

/-! ## Frames -/

/-- The nine items of the state (R20), as names for frames. -/
inductive Part where
  | mem | v | i | pc | stack | sp | seed | display | status
deriving DecidableEq, Repr

/-- One item is the same in two states; for memory: every byte reads the same. -/
def SameAt (s t : State) : Part → Prop
  | .mem => ∀ a, t.mem.read a = s.mem.read a
  | .v => t.v = s.v
  | .i => t.i = s.i
  | .pc => t.pc = s.pc
  | .stack => t.stack = s.stack
  | .sp => t.sp = s.sp
  | .seed => t.seed = s.seed
  | .display => t.display = s.display
  | .status => t.status = s.status

/-- From `s` to `t`, every item not listed is unchanged. -/
def UnchangedBut (parts : List Part) (s t : State) : Prop := ∀ p, p ∉ parts → SameAt s t p

/-- From `s` to `t`, every general register not listed is unchanged. -/
def RegsUnchangedBut (regs : List Reg) (s t : State) : Prop := ∀ r, r ∉ regs → t.getV r = s.getV r

/-! ## What the next step executes -/

/-- A running machine whose `PC` leaves room for a word: the next step fetches one (R91, R92). -/
def State.Fetches (s : State) : Prop := s.status = .running ∧ s.pc.toNat + 1 < Config.memSize

/-- The instruction the next step executes, if it fetches a word. -/
def nextInstr (s : State) : Option Instr :=
  if s.status = .running ∧ s.pc.toNat + 1 < Config.memSize then some (decodeWord (fetchWord s)) else none

/-- Whether an instruction is `RND`. -/
def isRnd : Instr → Bool
  | .rnd _ _ => true
  | _ => false

/-- Whether the next step executes an `RND`. -/
def nextIsRnd (s : State) : Bool := (nextInstr s).any isRnd

/-- How many `RND` the first `k` steps of a run from `s` execute (R153, R221). -/
def rndCount : Nat → State → Nat
  | 0, _ => 0
  | k + 1, s => rndCount k s + (if nextIsRnd (run k s) then 1 else 0)

/-- `PRNG_RESEED` applied `k` times (R153). -/
def reseedTimes : Nat → Seed → Seed
  | 0, sd => sd
  | k + 1, sd => Config.prngReseed (reseedTimes k sd)

/-! ## Who reads a register (R35) -/

/-- Whether an instruction reads the general register `r`: each `X` or `Y` field whose register's value its rule uses,
and `V[0]` for `JP V0` (R35, R112 to R122, R133 to R137, R152, R161). -/
def readsReg : Instr → Reg → Bool
  | .ret _, _ => false
  | .halt _ _, _ => false
  | .jp _, _ => false
  | .call _, _ => false
  | .seImm x _, r => r == x
  | .sneImm x _, r => r == x
  | .seReg x y _, r => r == x || r == y
  | .ldImm _ _, _ => false
  | .addImm x _, r => r == x
  | .ldReg _ y, r => r == y
  | .orReg x y, r => r == x || r == y
  | .andReg x y, r => r == x || r == y
  | .xorReg x y, r => r == x || r == y
  | .addReg x y, r => r == x || r == y
  | .subReg x y, r => r == x || r == y
  | .shrReg _ y, r => r == y
  | .subnReg x y, r => r == x || r == y
  | .shlReg _ y, r => r == y
  | .sneReg x y _, r => r == x || r == y
  | .ldI _, _ => false
  | .jpV0 _, r => r == 0
  | .rnd _ _, _ => false
  | .drw x y _, r => r == x || r == y
  | .illegal88toB _ _, _ => false
  | .illegal8CtoD _ _, _ => false
  | .illegal8F _, _ => false
  | .illegalEF _, _ => false

/-! ## Words, by their number (R71, R79) -/

/-- The words of R79: class 8 with `N` in 8, 9, A, B, C, D, F, and classes E and F. -/
def IllegalWord (w : Word) : Prop :=
  (w.toNat / 4096 = 8 ∧ 8 ≤ w.toNat % 16 ∧ w.toNat % 16 ≠ 14) ∨ 14 ≤ w.toNat / 4096

/-- The words of the sentinel: class 0 with a low byte other than 0xEE (R76). -/
def SentinelWord (w : Word) : Prop := w.toNat / 4096 = 0 ∧ w.toNat % 256 ≠ 0xEE

/-- The word with the hexadecimal digits `op`, `x`, `y`, `n` (R71). -/
def wordOfDigits (op x y n : Nat) : Word := BitVec.ofNat 16 (op * 4096 + x * 256 + y * 16 + n)

/-! ## The draw (R161 to R164) -/

/-- `(cx, cy)` is the cell of sprite row `r`, bit `k`: `(x0 + 8*r + k, y0 + r)` (R161). -/
def DrawOperands.cellAt (o : DrawOperands) (r k cx cy : Nat) : Prop := cx = o.x0 + 8 * r + k ∧ cy = o.y0 + r

/-- `(cx, cy)` is one of the `8*n` cells the draw writes. -/
def DrawOperands.touches (o : DrawOperands) (cx cy : Nat) : Prop :=
  ∃ r k, r < o.n ∧ k < 8 ∧ o.cellAt r k cx cy

/-- The value R161 gives the cell of row `r`, bit `k`: the old cell xor bit `7 - k` of the row's byte. -/
def drawnCell (o : DrawOperands) (s : State) (r k : Nat) : Bool :=
  xor (s.display.read (o.x0 + 8 * r + k) (o.y0 + r)) ((s.mem.read (o.base + r)).toNat / 2 ^ (7 - k) % 2 == 1)

/-- Every access of the draw is in range: each row byte in memory, each cell on the grid (R162). -/
def DrawOperands.InRange (o : DrawOperands) : Prop :=
  ∀ r k, r < o.n → k < 8 → o.base + r < 4096 ∧ o.x0 + 8 * r + k < 64 ∧ o.y0 + r < 32

/-! ## Launch and invariants -/

/-- The launch predicate for the program bytes `buf` and the seed `sd` (R214). -/
structure LaunchState (buf : List Byte) (sd : Seed) (s : State) : Prop where
  running : s.status = .running
  pc : s.pc = 0x200
  sp : s.sp = 0
  i : s.i = 0
  v : ∀ r, s.getV r = 0
  stack : ∀ k (h : k < 16), s.stack[k] = 0
  display : ∀ x y, x < 64 → y < 32 → s.display.read x y = false
  seed : s.seed = sd
  program : ∀ j (h : j < buf.length), s.mem.read (0x200 + j) = buf[j]
  rest : ∀ j, (j < 0x200 ∨ 0x200 + buf.length ≤ j) → s.mem.read j = 0

/-- What `STATUS` records of the stop it was written by (R181, R221 (h)). -/
def StopRecord (s : State) : Prop :=
  match s.status with
  | .running => True
  | .halted .endOfMemory => 4096 ≤ s.pc.toNat
  | .halted .unknownMiscOpcode => SentinelWord (s.mem.readWord (s.pc.toNat - 2)) ∧ 2 ≤ s.pc.toNat
  | .faulted .fetchOutOfRange addr word => addr.toNat = 4095 ∧ word = none ∧ s.pc.toNat = 4095
  | .faulted _ addr word => word = some (s.mem.readWord addr.toNat) ∧ s.pc.toNat = addr.toNat + 2

/-- The invariants of reachable states: R221 (c) to (f) and (h), beside the canonical form of memory. (b) is in the
type of `SP`; (a) and (g) are statements of their own. -/
structure Inv (s : State) : Prop where
  memWf : s.mem.wf
  lowMemoryZero : ∀ a, a < 0x200 → s.mem.read a = 0
  freeSlotsZero : ∀ k (h : k < 16), s.sp.val ≤ k → s.stack[k] = 0
  usedSlotsBounded : ∀ k (h : k < 16), s.stack[k].toNat ≤ 0x1000
  pcBounded : s.pc.toNat ≤ 0x10FE
  indexBounded : s.i.toNat ≤ 0x0FFF
  stopRecord : StopRecord s

end Sys2Proof.Machine
end

