-- ==== Sys2Proof/Certificates/Slice0/Obligations.lean ====
section
/-! DEFINITION. The statements for the provers, from the numbered rules of spec/. In a statement about `exec`, the state
is the one an instruction rule is entered with: `PC = a + 2` (R9, R94), so `a` is `s.pc - 2`. -/

open Sys2Proof Sys2Proof.Machine

/-! ## Encoding and decoding -/

/-- Words written out from the opcode map decode to the instructions they stand for (vectors of `95_test_vectors.md`). -/
def Obligations.KnownWordsDecode : Prop :=
  decodeWord 0x612A = .ldImm 1 0x2A ∧ decodeWord 0xD5A3 = .drw 5 10 3 ∧ decodeWord 0x00EE = .ret 0 ∧
  decodeWord 0x07EE = .ret 7 ∧ decodeWord 0x00E0 = .halt 0 0xE0 ∧ decodeWord 0x2208 = .call 0x208 ∧
  decodeWord 0x812E = .shlReg 1 2 ∧ decodeWord 0x5127 = .seReg 1 2 7 ∧ decodeWord 0xB300 = .jpV0 0x300 ∧
  decodeWord 0xC30F = .rnd 3 0x0F

/-- R74: what every word decodes to, by its four hexadecimal digits; a word R74 calls ILLEGAL raises UnimplementedOpcode
with its address and itself. -/
def Obligations.DecoderFollowsTheClassTable : Prop :=
  ∀ x y n : Fin 16,
    (y.val = 14 ∧ n.val = 14 → decodeWord (wordOfDigits 0 x y n) = .ret (regBits x)) ∧
    (¬ (y.val = 14 ∧ n.val = 14) →
      decodeWord (wordOfDigits 0 x y n) = .halt (regBits x) (BitVec.ofNat 8 (16 * y + n))) ∧
    decodeWord (wordOfDigits 1 x y n) = .jp (BitVec.ofNat 12 (256 * x + 16 * y + n)) ∧
    decodeWord (wordOfDigits 2 x y n) = .call (BitVec.ofNat 12 (256 * x + 16 * y + n)) ∧
    decodeWord (wordOfDigits 3 x y n) = .seImm x (BitVec.ofNat 8 (16 * y + n)) ∧
    decodeWord (wordOfDigits 4 x y n) = .sneImm x (BitVec.ofNat 8 (16 * y + n)) ∧
    decodeWord (wordOfDigits 5 x y n) = .seReg x y (regBits n) ∧
    decodeWord (wordOfDigits 6 x y n) = .ldImm x (BitVec.ofNat 8 (16 * y + n)) ∧
    decodeWord (wordOfDigits 7 x y n) = .addImm x (BitVec.ofNat 8 (16 * y + n)) ∧
    decodeWord (wordOfDigits 8 x y 0) = .ldReg x y ∧
    decodeWord (wordOfDigits 8 x y 1) = .orReg x y ∧
    decodeWord (wordOfDigits 8 x y 2) = .andReg x y ∧
    decodeWord (wordOfDigits 8 x y 3) = .xorReg x y ∧
    decodeWord (wordOfDigits 8 x y 4) = .addReg x y ∧
    decodeWord (wordOfDigits 8 x y 5) = .subReg x y ∧
    decodeWord (wordOfDigits 8 x y 6) = .shrReg x y ∧
    decodeWord (wordOfDigits 8 x y 7) = .subnReg x y ∧
    decodeWord (wordOfDigits 8 x y 14) = .shlReg x y ∧
    decodeWord (wordOfDigits 9 x y n) = .sneReg x y (regBits n) ∧
    decodeWord (wordOfDigits 10 x y n) = .ldI (BitVec.ofNat 12 (256 * x + 16 * y + n)) ∧
    decodeWord (wordOfDigits 11 x y n) = .jpV0 (BitVec.ofNat 12 (256 * x + 16 * y + n)) ∧
    decodeWord (wordOfDigits 12 x y n) = .rnd x (BitVec.ofNat 8 (16 * y + n)) ∧
    decodeWord (wordOfDigits 13 x y n) = .drw x y (regBits n) ∧
    ∀ (w : Word) (s : State),
      ((8 ≤ n.val ∧ n.val ≠ 14 ∧ w = wordOfDigits 8 x y n) ∨ w = wordOfDigits 14 x y n ∨ w = wordOfDigits 15 x y n) →
      exec (decodeWord w) s = .next { s with status := .faulted .unimplementedOpcode (s.pc - 2) (some w) }

/-- Every word fits some row of the opcode table, and the first row it fits, in priority order, is the row of the
instruction it decodes to (R75, R79, R83). -/
def Obligations.EveryWordDecodesToItsTableRow : Prop :=
  ∀ w : Word, opcodeTable.find? (fun r => r.fits w) = some (rowOf (decodeWord w))

/-- Decoding the encoding of a well-formed instruction, from its word or from its bytes, gives the instruction back. -/
def Obligations.DecodeOfEncodeIsIdentity : Prop :=
  ∀ i : Instr, i.wellFormed = true →
    decodeWord (encode i) = i ∧ ∀ rest, decodeBytes (encodeBytes i ++ rest) = .ok (i, rest)

/-- Every word decodes to a well-formed instruction whose encoding is the word: decoding drops no bit. -/
def Obligations.EncodeOfDecodeIsIdentity : Prop :=
  ∀ w : Word, (decodeWord w).wellFormed = true ∧ encode (decodeWord w) = w

/-! ## The step -/

/-- A step of a running machine whose two bytes at `PC` exist runs the instruction those bytes decode to, at the state
with `PC` advanced by 2. -/
def Obligations.StepRunsTheDecodedInstruction : Prop :=
  ∀ (s : State) (i : Instr), s.status = .running → s.pc.toNat + 1 < 4096 →
    decodeBytes [s.mem.read s.pc.toNat, s.mem.read (s.pc.toNat + 1)] = .ok (i, []) →
    step s = exec i { s with pc := s.pc + 2 }

/-- R90 to R92: the stages of one step, the two stops before a fetch, the big-endian fetch, and the two outcomes of
dispatch that are not handlers. -/
def Obligations.StepFollowsItsStages : Prop :=
  ∀ s : State, s.status = .running →
    (4096 ≤ s.pc.toNat → step s = .next { s with status := .halted .endOfMemory }) ∧
    (s.pc.toNat = 4095 → step s = .next { s with status := .faulted .fetchOutOfRange 4095 none }) ∧
    (s.pc.toNat < 4095 → ∀ w : Word,
      w.toNat = (s.mem.read s.pc.toNat).toNat * 256 + (s.mem.read (s.pc.toNat + 1)).toNat →
        step s = exec (decodeWord w) { s with pc := s.pc + 2 } ∧
        (SentinelWord w → step s = .next { s with pc := s.pc + 2, status := .halted .unknownMiscOpcode }) ∧
        (IllegalWord w →
          step s = .next { s with pc := s.pc + 2, status := .faulted .unimplementedOpcode s.pc (some w) }))

/-- R219: a running machine has exactly one next state; a stopped one has none. -/
def Obligations.RunningMachineAlwaysHasOneStep : Prop :=
  ∀ s : State,
    (s.status = .running → ∃ t, step s = .next t ∧ ∀ u, step s = .next u → u = t) ∧
    (s.status ≠ .running → ∀ t, step s ≠ .next t)

/-- A stopped machine has no step, Run returns at once without changing anything, and Reset makes the machine running
again (R100; Run is under fuel, log 16). That the host's Load is refused and its Step absent is over the session of
log 11, and what the go and write ports do is over the ports of log 12: both are the model's choices. -/
def Obligations.StoppedMachineStaysStopped : Prop :=
  ∀ h : HostSession, h.core.status ≠ .running →
    (∀ t, step h.core ≠ .next t) ∧ (∀ k, run k h.core = h.core) ∧ (∀ buf, h.load buf = none) ∧ h.step = none ∧
    h.portGo = h ∧ (∀ addr data, (h.portWrite addr data).core.status = h.core.status) ∧
    ∀ sd, (h.reset sd).core.status = .running

/-- Run, under fuel (log 16), and repeated Step reach the same states (R98): a run of `j + k` steps is a run of `j` and then of `k`, and one
step of Run is Step. -/
def Obligations.RunIsRepeatedStep : Prop :=
  ∀ (s : State) (j k : Nat), run (j + k) s = run k (run j s) ∧ ∀ t, step s = .next t → run (k + 1) s = run k t

/-- The model's `withFetchWord` (log 10) does what it is for: the very next step runs exactly the table word placed. -/
def Obligations.PlacedWordIsTheNextToRun : Prop :=
  ∀ (s : State) (w : Word), s.status = .running → s.pc.toNat + 1 < 4096 → s.mem.wf →
    step (s.withFetchWord 16 w.toNat) =
      exec (decodeWord w) { s.withFetchWord 16 w.toNat with pc := s.pc + 2 } ∧
    UnchangedBut [.mem] s (s.withFetchWord 16 w.toNat) ∧
    ∀ a, a ≠ s.pc.toNat → a ≠ s.pc.toNat + 1 → (s.withFetchWord 16 w.toNat).mem.read a = s.mem.read a

/-! ## Stops -/

/-- R96: `HALT` halts cleanly and writes `STATUS` only. -/
def Obligations.HaltStopsCleanly : Prop :=
  ∀ (s : State) (ignored : Nibble) (nn : Byte),
    exec (.halt ignored nn) s = .next { s with status := .halted .unknownMiscOpcode }

/-- R97: each of the four rows of illegal words raises UnimplementedOpcode with the address and the word, and changes
nothing else. -/
def Obligations.IllegalInstructionsFault : Prop :=
  ∀ s : State,
    (∀ xy low, exec (.illegal88toB xy low) s = .next
      { s with status := .faulted .unimplementedOpcode (s.pc - 2) (some (encode (.illegal88toB xy low))) }) ∧
    (∀ xy low, exec (.illegal8CtoD xy low) s = .next
      { s with status := .faulted .unimplementedOpcode (s.pc - 2) (some (encode (.illegal8CtoD xy low))) }) ∧
    (∀ xy, exec (.illegal8F xy) s = .next
      { s with status := .faulted .unimplementedOpcode (s.pc - 2) (some (encode (.illegal8F xy))) }) ∧
    (∀ low, exec (.illegalEF low) s = .next
      { s with status := .faulted .unimplementedOpcode (s.pc - 2) (some (encode (.illegalEF low))) })

/-- R184: a step that stops the machine has written `STATUS` and nothing else but the advance of `PC`, and that only when
a word was fetched. -/
def Obligations.StopsArePrecise : Prop :=
  ∀ s t : State, step s = .next t → t.status ≠ .running →
    UnchangedBut [.pc, .status] s t ∧ t.mem = s.mem ∧ t.pc = (if s.pc.toNat < 4095 then s.pc + 2 else s.pc)

/-- R181, R183: which stop a step reports, from the state before it: for each cause exactly its condition and its record,
the tests in their order of priority, and `PC` in the stopped state. The codes of R181 are in `StatusPortsShowTheStop`.
`w` is the word at `PC`, `X`, `Y`, `N` its fields. -/
def Obligations.EachStopHasItsCondition : Prop :=
  ∀ s t : State, s.status = .running → step s = .next t →
    let w := s.mem.readWord s.pc.toNat
    let fetches := s.pc.toNat < 4095
    let isDrw := w.toNat / 4096 = 13
    let n := w.toNat % 16
    let readsOut := 0 < n ∧ 4096 < s.i.toNat + n
    let drawsOut := 0 < n ∧ (64 < (s.getV (fieldX w)).toNat + 8 * n ∨ 32 < (s.getV (fieldY w)).toNat + n)
    (t.status = .halted .endOfMemory ↔ 4096 ≤ s.pc.toNat) ∧
    (t.status = .halted .unknownMiscOpcode ↔ fetches ∧ SentinelWord w) ∧
    (∀ a v, t.status = .faulted .fetchOutOfRange a v ↔ s.pc.toNat = 4095 ∧ a = 4095 ∧ v = none) ∧
    (∀ a v, t.status = .faulted .unimplementedOpcode a v ↔ fetches ∧ IllegalWord w ∧ a = s.pc ∧ v = some w) ∧
    (∀ a v, t.status = .faulted .stackOverflow a v ↔
      fetches ∧ w.toNat / 4096 = 2 ∧ s.sp.val = 16 ∧ a = s.pc ∧ v = some w) ∧
    (∀ a v, t.status = .faulted .stackUnderflow a v ↔
      fetches ∧ w.toNat / 4096 = 0 ∧ w.toNat % 256 = 0xEE ∧ s.sp.val = 0 ∧ a = s.pc ∧ v = some w) ∧
    (∀ a v, t.status = .faulted .spriteReadOutOfRange a v ↔ fetches ∧ isDrw ∧ readsOut ∧ a = s.pc ∧ v = some w) ∧
    (∀ a v, t.status = .faulted .displayOutOfRange a v ↔
      fetches ∧ isDrw ∧ ¬ readsOut ∧ drawsOut ∧ a = s.pc ∧ v = some w) ∧
    (t.status ≠ .running → t.pc = if s.pc.toNat < 4095 then s.pc + 2 else s.pc)

/-- R182: which instruction can stop the machine, and with which cause: `HALT` always halts, an illegal word always raises
UnimplementedOpcode, `CALL`, `RET` and `DRW` raise their own faults or none, and every other form leaves `STATUS`. -/
def Obligations.EachInstructionRaisesOnlyItsOwnStop : Prop :=
  ∀ (i : Instr) (s t : State), exec i s = .next t →
    (t.status = s.status ∧ (∀ b nn, i ≠ .halt b nn) ∧ (∀ xy low, i ≠ .illegal88toB xy low) ∧
      (∀ xy low, i ≠ .illegal8CtoD xy low) ∧ (∀ xy, i ≠ .illegal8F xy) ∧ ∀ low, i ≠ .illegalEF low) ∨
    ((∃ b nn, i = .halt b nn) ∧ t.status = .halted .unknownMiscOpcode) ∨
    ∃ (r : FaultReason) (a w : Word), t.status = .faulted r a (some w) ∧
      (((∃ nnn, i = .call nnn) ∧ r = .stackOverflow) ∨ ((∃ b, i = .ret b) ∧ r = .stackUnderflow) ∨
       ((∃ x y n, i = .drw x y n) ∧ (r = .spriteReadOutOfRange ∨ r = .displayOutOfRange)) ∨
       (((∃ xy low, i = .illegal88toB xy low) ∨ (∃ xy low, i = .illegal8CtoD xy low) ∨ (∃ xy, i = .illegal8F xy) ∨
         ∃ low, i = .illegalEF low) ∧ r = .unimplementedOpcode))

/-- The codes of R181, for every value of `STATUS`, and the fault ports of R216, for every fault; what those ports show
without a fault the spec does not give (log 12). -/
def Obligations.StatusPortsShowTheStop : Prop :=
  Status.running.code = 0 ∧ (Status.halted .endOfMemory).code = 1 ∧ (Status.halted .unknownMiscOpcode).code = 2 ∧
  ∀ (a : Word) (w : Option Word),
    (Status.faulted .unimplementedOpcode a w).code = 3 ∧ (Status.faulted .stackOverflow a w).code = 4 ∧
    (Status.faulted .stackUnderflow a w).code = 5 ∧ (Status.faulted .fetchOutOfRange a w).code = 6 ∧
    (Status.faulted .spriteReadOutOfRange a w).code = 7 ∧ (Status.faulted .displayOutOfRange a w).code = 8 ∧
    ∀ r, (Status.faulted r a w).faultAddr = some a ∧ (Status.faulted r a w).faultWord = w ∧
      (Status.faulted r a w).faultWordValid = w.isSome

/-- R57: a `PC` at or past the end of memory is no fault of the instruction that produced it; the halt is at the start of
the next step and leaves `PC`. -/
def Obligations.PcPastMemoryHaltsTheNextStep : Prop :=
  ∀ s t : State, step s = .next t → t.status = .running → 4096 ≤ t.pc.toNat →
    step t = .next { t with status := .halted .endOfMemory }

/-! ## Register loads and the ALU -/

/-- R112: `LD Vx, NN`. -/
def Obligations.LoadImmediateWritesItsByte : Prop :=
  ∀ (s : State) (x : Reg) (nn : Byte), ∃ t, exec (.ldImm x nn) s = .next t ∧ t.getV x = nn ∧
    RegsUnchangedBut [x] s t ∧ UnchangedBut [.v] s t

/-- R113: `ADD Vx, NN` wraps modulo 256 and sets no flag. -/
def Obligations.AddImmediateWrapsWithoutFlag : Prop :=
  ∀ (s : State) (x : Reg) (nn : Byte), ∃ t, exec (.addImm x nn) s = .next t ∧
    (t.getV x).toNat = ((s.getV x).toNat + nn.toNat) % 256 ∧ RegsUnchangedBut [x] s t ∧ UnchangedBut [.v] s t

/-- R114 to R117: `LD`, `OR`, `AND`, `XOR` of registers, bit by bit, with no flag. -/
def Obligations.MoveAndLogicWriteOnlyTheirDestination : Prop :=
  ∀ (s : State) (x y : Reg),
    (∃ t, exec (.ldReg x y) s = .next t ∧ t.getV x = s.getV y ∧ RegsUnchangedBut [x] s t ∧ UnchangedBut [.v] s t) ∧
    (∃ t, exec (.orReg x y) s = .next t ∧ (∀ k, (t.getV x).getLsbD k = ((s.getV x).getLsbD k || (s.getV y).getLsbD k)) ∧
      RegsUnchangedBut [x] s t ∧ UnchangedBut [.v] s t) ∧
    (∃ t, exec (.andReg x y) s = .next t ∧ (∀ k, (t.getV x).getLsbD k = ((s.getV x).getLsbD k && (s.getV y).getLsbD k)) ∧
      RegsUnchangedBut [x] s t ∧ UnchangedBut [.v] s t) ∧
    (∃ t, exec (.xorReg x y) s = .next t ∧
      (∀ k, (t.getV x).getLsbD k = xor ((s.getV x).getLsbD k) ((s.getV y).getLsbD k)) ∧
      RegsUnchangedBut [x] s t ∧ UnchangedBut [.v] s t)

/-- R118: `ADD Vx, Vy`: the sum mod 256, then `VF` 1 iff the sum is over 255; with `X = 15` the flag remains. -/
def Obligations.AddRegistersSetsCarry : Prop :=
  ∀ (s : State) (x y : Reg), ∃ t, exec (.addReg x y) s = .next t ∧
    (x ≠ 15 → (t.getV x).toNat = ((s.getV x).toNat + (s.getV y).toNat) % 256) ∧
    (t.getV 15).toNat = (if 255 < (s.getV x).toNat + (s.getV y).toNat then 1 else 0) ∧
    RegsUnchangedBut [x, 15] s t ∧ UnchangedBut [.v] s t

/-- R119, R121: `SUB` and `SUBN`: the difference mod 256, then `VF` 1 iff the minuend is strictly greater. -/
def Obligations.SubtractionsSetStrictGreater : Prop :=
  ∀ (s : State) (x y : Reg),
    (∃ t, exec (.subReg x y) s = .next t ∧
      (x ≠ 15 → (t.getV x).toNat = ((s.getV x).toNat + 256 - (s.getV y).toNat) % 256) ∧
      (t.getV 15).toNat = (if (s.getV y).toNat < (s.getV x).toNat then 1 else 0) ∧
      RegsUnchangedBut [x, 15] s t ∧ UnchangedBut [.v] s t) ∧
    (∃ t, exec (.subnReg x y) s = .next t ∧
      (x ≠ 15 → (t.getV x).toNat = ((s.getV y).toNat + 256 - (s.getV x).toNat) % 256) ∧
      (t.getV 15).toNat = (if (s.getV x).toNat < (s.getV y).toNat then 1 else 0) ∧
      RegsUnchangedBut [x, 15] s t ∧ UnchangedBut [.v] s t)

/-- R120, R122: `SHR` and `SHL` shift `V[Y]` by one into `V[X]`; `VF` gets the bit shifted out. -/
def Obligations.ShiftsTakeTheirSourceFromY : Prop :=
  ∀ (s : State) (x y : Reg),
    (∃ t, exec (.shrReg x y) s = .next t ∧ (x ≠ 15 → (t.getV x).toNat = (s.getV y).toNat / 2) ∧
      (t.getV 15).toNat = (s.getV y).toNat % 2 ∧ RegsUnchangedBut [x, 15] s t ∧ UnchangedBut [.v] s t) ∧
    (∃ t, exec (.shlReg x y) s = .next t ∧ (x ≠ 15 → (t.getV x).toNat = 2 * (s.getV y).toNat % 256) ∧
      (t.getV 15).toNat = (s.getV y).toNat / 128 ∧ RegsUnchangedBut [x, 15] s t ∧ UnchangedBut [.v] s t)

/-- R124: the corner cases of the five flag-setting instructions: one register named twice, and `X = 15`. -/
def Obligations.FlagSettersInTheirCornerCases : Prop :=
  ∀ (s : State),
    (∀ x : Reg, x ≠ 15 → ∃ t4 t5 t6 t7 te,
      exec (.addReg x x) s = .next t4 ∧ exec (.subReg x x) s = .next t5 ∧ exec (.shrReg x x) s = .next t6 ∧
      exec (.subnReg x x) s = .next t7 ∧ exec (.shlReg x x) s = .next te ∧
      (t4.getV x).toNat = 2 * (s.getV x).toNat % 256 ∧ (t4.getV 15).toNat = (if 128 ≤ (s.getV x).toNat then 1 else 0) ∧
      t5.getV x = 0 ∧ t5.getV 15 = 0 ∧
      (t6.getV x).toNat = (s.getV x).toNat / 2 ∧ (t6.getV 15).toNat = (s.getV x).toNat % 2 ∧
      t7.getV x = 0 ∧ t7.getV 15 = 0 ∧
      (te.getV x).toNat = 2 * (s.getV x).toNat % 256 ∧ (te.getV 15).toNat = (s.getV x).toNat / 128) ∧
    (∀ y : Reg, ∃ t4 t5 t6 t7 te,
      exec (.addReg 15 y) s = .next t4 ∧ exec (.subReg 15 y) s = .next t5 ∧ exec (.shrReg 15 y) s = .next t6 ∧
      exec (.subnReg 15 y) s = .next t7 ∧ exec (.shlReg 15 y) s = .next te ∧
      (t4.getV 15).toNat = (if 255 < (s.getV 15).toNat + (s.getV y).toNat then 1 else 0) ∧
      (t5.getV 15).toNat = (if (s.getV y).toNat < (s.getV 15).toNat then 1 else 0) ∧
      (t6.getV 15).toNat = (s.getV y).toNat % 2 ∧
      (t7.getV 15).toNat = (if (s.getV 15).toNat < (s.getV y).toNat then 1 else 0) ∧
      (te.getV 15).toNat = (s.getV y).toNat / 128) ∧
    (∃ t4 t5 t6 t7 te,
      exec (.addReg 15 15) s = .next t4 ∧ exec (.subReg 15 15) s = .next t5 ∧ exec (.shrReg 15 15) s = .next t6 ∧
      exec (.subnReg 15 15) s = .next t7 ∧ exec (.shlReg 15 15) s = .next te ∧
      (t4.getV 15).toNat = (if 128 ≤ (s.getV 15).toNat then 1 else 0) ∧ t5.getV 15 = 0 ∧
      (t6.getV 15).toNat = (s.getV 15).toNat % 2 ∧ t7.getV 15 = 0 ∧ (te.getV 15).toNat = (s.getV 15).toNat / 128)

/-- R123: `LD I, NNN`. -/
def Obligations.IndexLoadWritesItsAddress : Prop :=
  ∀ (s : State) (nnn : Addr12), ∃ t, exec (.ldI nnn) s = .next t ∧ t.i.toNat = nnn.toNat ∧ UnchangedBut [.i] s t

/-! ## Control flow -/

/-- R130: `JP NNN`. -/
def Obligations.JumpSetsTheCounter : Prop :=
  ∀ (s : State) (nnn : Addr12), ∃ t, exec (.jp nnn) s = .next t ∧ t.pc.toNat = nnn.toNat ∧ UnchangedBut [.pc] s t

/-- R133: `JP V0, NNN` adds `V[0]` with no mask and no wrap; a sum of 0x1000 or more halts the next step, a sum of 0xFFF
faults it. -/
def Obligations.OffsetJumpIsNotMasked : Prop :=
  ∀ (s : State) (nnn : Addr12), ∃ t, exec (.jpV0 nnn) s = .next t ∧
    t.pc.toNat = nnn.toNat + (s.getV 0).toNat ∧ UnchangedBut [.pc] s t ∧
    (s.status = .running → 0x1000 ≤ nnn.toNat + (s.getV 0).toNat →
      step t = .next { t with status := .halted .endOfMemory }) ∧
    (s.status = .running → nnn.toNat + (s.getV 0).toNat = 0xFFF →
      step t = .next { t with status := .faulted .fetchOutOfRange 0xFFF none })

/-- R131: `CALL NNN` pushes the already advanced counter and jumps; on a full stack it faults and writes nothing else. -/
def Obligations.CallPushesTheAdvancedCounter : Prop :=
  ∀ (s : State) (nnn : Addr12),
    (∀ h : s.sp.val < 16, ∃ t, exec (.call nnn) s = .next t ∧ t.stack[s.sp.val] = s.pc ∧
      (∀ k (hk : k < 16), k ≠ s.sp.val → t.stack[k] = s.stack[k]) ∧ t.sp.val = s.sp.val + 1 ∧
      t.pc.toNat = nnn.toNat ∧ UnchangedBut [.pc, .stack, .sp] s t) ∧
    (s.sp.val = 16 → exec (.call nnn) s = .next
      { s with status := .faulted .stackOverflow (s.pc - 2) (some (encode (.call nnn))) })

/-- R132: `RET` pops into the counter and zeroes the vacated slot; on an empty stack it faults and writes nothing else. -/
def Obligations.ReturnPopsAndZeroesTheSlot : Prop :=
  ∀ (s : State) (ignored : Nibble),
    (∀ k (hk : k < 16), s.sp.val = k + 1 → ∃ t, exec (.ret ignored) s = .next t ∧ t.sp.val = k ∧ t.pc = s.stack[k] ∧
      t.stack[k] = 0 ∧ (∀ j (hj : j < 16), j ≠ k → t.stack[j] = s.stack[j]) ∧ UnchangedBut [.pc, .stack, .sp] s t) ∧
    (s.sp.val = 0 → exec (.ret ignored) s = .next
      { s with status := .faulted .stackUnderflow (s.pc - 2) (some (encode (.ret ignored))) })

/-- A return after a call, whatever ran between as long as the stack is as the call left it, restores the counter to the
instruction after the call and the stack pointer, and leaves the slot 0 (R131, R132). -/
def Obligations.ReturnUndoesCall : Prop :=
  ∀ (s t m : State) (nnn : Addr12) (ignored : Nibble), s.sp.val < 16 → exec (.call nnn) s = .next t →
    m.stack = t.stack → m.sp = t.sp →
    ∃ u, exec (.ret ignored) m = .next u ∧ u.pc = s.pc ∧ u.sp = s.sp ∧
      (∀ k (hk : k < 16), u.stack[k] = if k = s.sp.val then 0 else s.stack[k]) ∧ UnchangedBut [.pc, .stack, .sp] m u

/-- R134 to R137: each skip adds 2 to the already advanced counter when its condition holds, and nothing otherwise. -/
def Obligations.SkipsTestForEquality : Prop :=
  ∀ (s : State) (x y : Reg) (nn : Byte) (ignored : Nibble),
    (∃ t, exec (.seImm x nn) s = .next t ∧ t.pc = (if s.getV x = nn then s.pc + 2 else s.pc) ∧ UnchangedBut [.pc] s t) ∧
    (∃ t, exec (.sneImm x nn) s = .next t ∧ t.pc = (if s.getV x ≠ nn then s.pc + 2 else s.pc) ∧ UnchangedBut [.pc] s t) ∧
    (∃ t, exec (.seReg x y ignored) s = .next t ∧ t.pc = (if s.getV x = s.getV y then s.pc + 2 else s.pc) ∧
      UnchangedBut [.pc] s t) ∧
    (∃ t, exec (.sneReg x y ignored) s = .next t ∧ t.pc = (if s.getV x ≠ s.getV y then s.pc + 2 else s.pc) ∧
      UnchangedBut [.pc] s t)

/-- R138: over a whole step, a skip whose condition holds moves the counter by 4, and by 2 when it does not; no wrap. -/
def Obligations.SkipAddsExactlyTwoExtra : Prop :=
  ∀ (s : State) (x y : Reg) (nn : Byte) (ignored : Nibble),
    (nextInstr s = some (.seImm x nn) → ∃ t, step s = .next t ∧
      t.pc.toNat = s.pc.toNat + (if s.getV x = nn then 4 else 2)) ∧
    (nextInstr s = some (.sneImm x nn) → ∃ t, step s = .next t ∧
      t.pc.toNat = s.pc.toNat + (if s.getV x = nn then 2 else 4)) ∧
    (nextInstr s = some (.seReg x y ignored) → ∃ t, step s = .next t ∧
      t.pc.toNat = s.pc.toNat + (if s.getV x = s.getV y then 4 else 2)) ∧
    (nextInstr s = some (.sneReg x y ignored) → ∃ t, step s = .next t ∧
      t.pc.toNat = s.pc.toNat + (if s.getV x = s.getV y then 2 else 4))

/-! ## The pseudo-random generator -/

/-- R152: `RND Vx, NN`. The byte and the new seed are the uninterpreted functions' (log 7), whatever they are. -/
def Obligations.RndDrawsAndReseeds : Prop :=
  ∀ (s : State) (x : Reg) (nn : Byte), ∃ t, exec (.rnd x nn) s = .next t ∧
    (∀ k, (t.getV x).getLsbD k = ((Config.prngByte s.seed).getLsbD k && nn.getLsbD k)) ∧
    t.seed = Config.prngReseed s.seed ∧ RegsUnchangedBut [x] s t ∧ UnchangedBut [.v, .seed] s t

/-- R153, R221 (g): after any number of steps from any state the seed is the first one reseeded once for each `RND`
executed so far, and an `RND` executed then draws the byte of that seed. -/
def Obligations.SeedCountsTheRndExecuted : Prop :=
  ∀ (s : State) (k : Nat),
    (run k s).seed = reseedTimes (rndCount k s) s.seed ∧
    ∀ x nn, nextInstr (run k s) = some (.rnd x nn) → ∃ t, step (run k s) = .next t ∧
      t.getV x = Config.prngByte (reseedTimes (rndCount k s) s.seed) &&& nn ∧
      t.seed = reseedTimes (rndCount k s + 1) s.seed

/-- The seed is hidden from every step but one that executes `RND` (R28, R35): with another seed the step does the same
and keeps that seed. -/
def Obligations.SeedIsSeenOnlyByRnd : Prop :=
  ∀ (s t : State) (sd : Seed), nextIsRnd s = false → step s = .next t →
    step { s with seed := sd } = .next { t with seed := sd }

/-! ## The display -/

/-- R161, R164, R165: a draw whose accesses are all in range completes: sprite row `r`, bit `k` is xored onto the cell
`(x0 + 8*r + k, y0 + r)`, the operands sampled before any write; every other cell, every register but `VF`, and every
other item is unchanged. -/
def Obligations.DrawXorsEachRowAtItsDriftingCursor : Prop :=
  ∀ (s : State) (x y : Reg) (n : Nibble), (drawOperands x y n s).InRange →
    ∃ t, exec (.drw x y n) s = .next t ∧
      (∀ r k, r < n.toNat → k < 8 →
        t.display.read ((s.getV x).toNat + 8 * r + k) ((s.getV y).toNat + r) =
          xor (s.display.read ((s.getV x).toNat + 8 * r + k) ((s.getV y).toNat + r))
            ((s.mem.read (s.i.toNat + r)).toNat / 2 ^ (7 - k) % 2 == 1)) ∧
      (∀ cx cy, (¬ ∃ r k, r < n.toNat ∧ k < 8 ∧ cx = (s.getV x).toNat + 8 * r + k ∧ cy = (s.getV y).toNat + r) →
        t.display.read cx cy = s.display.read cx cy) ∧
      RegsUnchangedBut [15] s t ∧ UnchangedBut [.v, .display] s t

/-- R163: the flag of a completed draw: 1 if any resulting cell is false, whether it was erased or never lit; otherwise 0
if the machine clears `VF` on a draw (the open parameter DRW_CLEARS_VF, log 7), and unchanged if it does not. -/
def Obligations.DrawFlagReportsAnyFalseCell : Prop :=
  ∀ (s : State) (x y : Reg) (n : Nibble), (drawOperands x y n s).InRange →
    ∃ t, exec (.drw x y n) s = .next t ∧
      ((∃ r k, r < n.toNat ∧ k < 8 ∧
          t.display.read ((s.getV x).toNat + 8 * r + k) ((s.getV y).toNat + r) = false) → t.getV 15 = 1) ∧
      ((∀ r k, r < n.toNat → k < 8 →
          t.display.read ((s.getV x).toNat + 8 * r + k) ((s.getV y).toNat + r) = true) →
        t.getV 15 = (if Config.drwClearsVf then 0 else s.getV 15))

/-- R162: a draw faults, before any write, exactly when some access of its would be out of range, the memory test first;
more than 8 rows always fault; no rows never do. -/
def Obligations.DrawFaultsBeforeAnyWrite : Prop :=
  ∀ (s : State) (x y : Reg) (n : Nibble),
    ((∃ r, r < n.toNat ∧ 4096 ≤ s.i.toNat + r) →
      exec (.drw x y n) s = .next
        { s with status := .faulted .spriteReadOutOfRange (s.pc - 2) (some (encode (.drw x y n))) }) ∧
    ((¬ ∃ r, r < n.toNat ∧ 4096 ≤ s.i.toNat + r) →
      (∃ r k, r < n.toNat ∧ k < 8 ∧ (64 ≤ (s.getV x).toNat + 8 * r + k ∨ 32 ≤ (s.getV y).toNat + r)) →
      exec (.drw x y n) s = .next
        { s with status := .faulted .displayOutOfRange (s.pc - 2) (some (encode (.drw x y n))) }) ∧
    ((drawOperands x y n s).InRange → ∃ t, exec (.drw x y n) s = .next t ∧ t.status = s.status) ∧
    (9 ≤ n.toNat → ¬ (drawOperands x y n s).InRange) ∧
    (n.toNat = 0 → ∃ t, exec (.drw x y n) s = .next t ∧ t.display = s.display ∧ t.status = s.status)

/-- R166: drawing the same sprite twice at the same position restores every cell, whatever ran between the draws as long
as it left the display, the memory, `I` and the two coordinates alone. -/
def Obligations.DrawingTwiceRestoresTheDisplay : Prop :=
  ∀ (s t m u : State) (x y : Reg) (n : Nibble), exec (.drw x y n) s = .next t →
    m.display = t.display → m.mem = s.mem → m.i = s.i → m.getV x = s.getV x → m.getV y = s.getV y →
    exec (.drw x y n) m = .next u → u.display = s.display

/-! ## Whole-machine rules -/

/-- R58: no step writes memory: MEM is constant from the first step to the stop. -/
def Obligations.NoStepWritesMemory : Prop :=
  ∀ (s t : State) (k : Nat), (step s = .next t → t.mem = s.mem) ∧ (run k s).mem = s.mem

/-- The writers of R35, R141 and R22: if an instruction changed an item, it is one of that item's writers. -/
def Obligations.EachItemHasOnlyItsWriters : Prop :=
  ∀ (i : Instr) (s t : State), exec i s = .next t →
    t.mem = s.mem ∧
    (t.i ≠ s.i → ∃ nnn, i = .ldI nnn) ∧
    (t.stack ≠ s.stack ∨ t.sp ≠ s.sp → (∃ nnn, i = .call nnn) ∨ ∃ b, i = .ret b) ∧
    (t.seed ≠ s.seed → ∃ x nn, i = .rnd x nn) ∧
    (t.display ≠ s.display → ∃ x y n, i = .drw x y n) ∧
    (t.pc ≠ s.pc → (∃ nnn, i = .jp nnn ∨ i = .call nnn ∨ i = .jpV0 nnn) ∨ (∃ b, i = .ret b) ∨
      (∃ x nn, i = .seImm x nn ∨ i = .sneImm x nn) ∨ ∃ x y b, i = .seReg x y b ∨ i = .sneReg x y b) ∧
    (t.status ≠ s.status → (∃ b nn, i = .halt b nn) ∨ (∃ nnn, i = .call nnn) ∨ (∃ b, i = .ret b) ∨
      (∃ x y n, i = .drw x y n) ∨ (∃ xy low, i = .illegal88toB xy low) ∨ (∃ xy low, i = .illegal8CtoD xy low) ∨
      (∃ xy, i = .illegal8F xy) ∨ ∃ low, i = .illegalEF low) ∧
    (∀ r, t.getV r ≠ s.getV r →
      (∃ nn, i = .ldImm r nn ∨ i = .addImm r nn ∨ i = .rnd r nn) ∨
      (∃ y, i = .ldReg r y ∨ i = .orReg r y ∨ i = .andReg r y ∨ i = .xorReg r y) ∨
      (∃ x y, (r = x ∨ r = 15) ∧
        (i = .addReg x y ∨ i = .subReg x y ∨ i = .shrReg x y ∨ i = .subnReg x y ∨ i = .shlReg x y)) ∨
      (r = 15 ∧ ∃ x y n, i = .drw x y n))

/-- The readers of R35: with another value of an item that is not among an instruction's reads, the instruction does the
same and keeps that value unless it overwrites it. The clauses: the display, memory and `I`; the stack and `SP`; the seed;
each general register; `PC`, which a fault's record also follows, as the address `PC - 2` (log 5). `STATUS` is in
`NoInstructionReadsStatus`. -/
def Obligations.EachItemHasOnlyItsReaders : Prop :=
  ∀ (i : Instr) (s t : State), exec i s = .next t →
    ((∀ x y n, i ≠ .drw x y n) →
      (∀ d, exec i { s with display := d } = .next { t with display := d }) ∧
      (∀ m, exec i { s with mem := m } = .next { t with mem := m }) ∧
      ((∀ nnn, i ≠ .ldI nnn) → ∀ v, exec i { s with i := v } = .next { t with i := v })) ∧
    ((∀ nnn, i ≠ .call nnn) → (∀ b, i ≠ .ret b) → ∀ st p,
      exec i { s with stack := st, sp := p } = .next { t with stack := st, sp := p }) ∧
    ((∀ x nn, i ≠ .rnd x nn) → ∀ sd, exec i { s with seed := sd } = .next { t with seed := sd }) ∧
    (∀ r, readsReg i r = false → ∀ b, ∃ t', exec i (s.setV r b) = .next t' ∧ RegsUnchangedBut [r] t t' ∧
      UnchangedBut [.v] t t' ∧ (t'.getV r = t.getV r ∨ t.getV r = s.getV r ∧ t'.getV r = b)) ∧
    ((∀ nnn, i ≠ .call nnn) → (∀ x nn, i ≠ .seImm x nn ∧ i ≠ .sneImm x nn) →
      (∀ x y b, i ≠ .seReg x y b ∧ i ≠ .sneReg x y b) → ∀ p, ∃ t', exec i { s with pc := p } = .next t' ∧
        UnchangedBut [.pc, .status] t t' ∧ (t'.pc = t.pc ∨ t.pc = s.pc ∧ t'.pc = p) ∧
        (t'.status = t.status ∨
          ∃ f w, t.status = .faulted f (s.pc - 2) w ∧ t'.status = .faulted f (p - 2) w))

/-- `STATUS` is invisible to programs (R32): with another value of it, an instruction leaves every other item the same. -/
def Obligations.NoInstructionReadsStatus : Prop :=
  ∀ (i : Instr) (s t : State) (st : Status), exec i s = .next t →
    ∃ t', exec i { s with status := st } = .next t' ∧ t = { t' with status := t.status } ∧
      (t.status ≠ s.status → t'.status = t.status)

/-! ## Reset, Load and the invariants -/

/-- R210: the value of every item after Reset, for every seed and whatever the machine was before; `State.reset` is Reset
with the open parameter SEED_INIT (log 7). -/
def Obligations.ResetSetsEveryItem : Prop :=
  State.reset = State.resetWith Config.seedInit ∧
  ∀ (h : HostSession) (sd : Seed),
    let s := (h.reset sd).core
    (∀ a, s.mem.read a = 0) ∧ (∀ r, s.getV r = 0) ∧ s.i = 0 ∧ s.pc = 0x0200 ∧
    (∀ k (hk : k < 16), s.stack[k] = 0) ∧ s.sp = 0 ∧ s.seed = sd ∧
    (∀ x y, x < 64 → y < 32 → s.display.read x y = false) ∧ s.status = .running

/-- Load copies the bytes verbatim from 0x200 on and changes nothing else; it is done only after Reset, before the
first step, once, and for at most 3584 bytes, and is otherwise refused (R59). When it is refused is stated over the
session's phase, which is the model's choice (log 11): a byte written through the write port counts as the one Load, so a
Load after it is refused too. -/
def Obligations.LoadCopiesTheBufferOnce : Prop :=
  ∀ (h : HostSession) (buf : List Byte), h.core.mem.wf →
    (h.load buf = none ↔ ¬ (h.phase = .fresh ∧ h.core.status = .running ∧ buf.length ≤ 3584)) ∧
    (∀ h', h.load buf = some h' →
      (∀ j (hj : j < buf.length), h'.core.mem.read (0x200 + j) = buf[j]) ∧
      (∀ a, a < 0x200 ∨ 0x200 + buf.length ≤ a → h'.core.mem.read a = h.core.mem.read a) ∧
      UnchangedBut [.mem] h.core h'.core ∧ ∀ buf', h'.load buf' = none) ∧
    ∀ h', h.step = some h' → ∀ buf', h'.load buf' = none

/-- R214: the state after Reset and Load is a launch state for the bytes and the seed, and it is the only one with its
memory in canonical form. -/
def Obligations.LaunchStateIsResetThenLoad : Prop :=
  ∀ (h h' : HostSession) (sd : Seed) (buf : List Byte), (h.reset sd).load buf = some h' →
    LaunchState buf sd h'.core ∧ ∀ s : State, s.mem.wf → LaunchState buf sd s → s = h'.core

/-- The invariants of R221 hold after Reset, whatever the seed, and at the state the machine starts from. -/
def Obligations.InvariantsHoldAtReset : Prop := Inv State.reset ∧ ∀ sd, Inv (State.resetWith sd)

/-- The invariants of R221 are kept by Load. -/
def Obligations.LoadKeepsTheInvariants : Prop :=
  ∀ (h h' : HostSession) (buf : List Byte), Inv h.core → h.load buf = some h' → Inv h'.core

/-- R221 (c) to (f) and (h): every step keeps the invariants: the canonical memory with its low 512 bytes zero, the free
stack slots zero and the used ones at most 0x1000, `PC` at most 0x10FE, `I` at most 0xFFF, and a stop record that agrees
with memory and `PC`. -/
def Obligations.EveryStepKeepsTheInvariants : Prop := ∀ s t : State, Inv s → step s = .next t → Inv t

/-- R221 (a) to (h): what holds in every state of a run from a launch state, whatever the program and the seed. -/
def Obligations.EveryRunKeepsTheInvariants : Prop :=
  ∀ (buf : List Byte) (sd : Seed) (s : State) (k : Nat), buf.length ≤ 3584 → s.mem.wf → LaunchState buf sd s →
    let t := run k s
    t.mem = s.mem ∧ t.sp.val ≤ 16 ∧ Inv t ∧ t.seed = reseedTimes (rndCount k s) sd

/-- R25: a step from a state in the invariants but for any `PC` at all either stops without changing `PC` or leaves it at
most 0x10FE, so the 16-bit addition never wraps. -/
def Obligations.PcNeverWraps : Prop :=
  ∀ (s t : State) (p : Word), Inv s → step { s with pc := p } = .next t →
    (t.pc = p ∧ t.status ≠ .running) ∨ t.pc.toNat ≤ 0x10FE

/-- What the host inspects (R215) says everything about the state but the seed and the memory. -/
def Obligations.InspectionHidesOnlySeedAndMemory : Prop :=
  ∀ s t : State, s.inspect = t.inspect ↔ t = { s with seed := t.seed, mem := t.mem }

/-- The write port of R216 keeps the host's duties: below 0x200, or after the first step, it changes nothing; otherwise it
writes the one byte. What the host has done is kept in the session, which is the model's choice (log 11), and the port is
the model's rendering (log 12). -/
def Obligations.WritePortIsHonouredOnlyBeforeTheFirstStep : Prop :=
  ∀ (h : HostSession) (addr : Addr12) (data : Byte), h.core.mem.wf →
    (h.phase = .stepped ∨ addr.toNat < 0x200 → h.portWrite addr data = h) ∧
    (h.phase ≠ .stepped → 0x200 ≤ addr.toNat →
      (∀ a, (h.portWrite addr data).core.mem.read a = if a = addr.toNat then data else h.core.mem.read a) ∧
      UnchangedBut [.mem] h.core (h.portWrite addr data).core)
end

