-- ==== Sys2Proof/Laws/Decode.lean ====
section
/-! SUPPORT. The fields of a word put together from its parts, the parts of a word put together again, and a row's mask
over a word's parts (R71, R75). -/

namespace Sys2Proof

/-! ## A register index and its bits -/

@[simp] theorem regOf_regBits (r : Reg) : regOf (regBits r) = r := by
  apply Fin.ext
  show (BitVec.ofNat 4 r.val).toNat = r.val
  rw [BitVec.toNat_ofNat]
  exact Nat.mod_eq_of_lt r.isLt

@[simp] theorem regBits_regOf (b : Nibble) : regBits (regOf b) = b := by
  apply BitVec.eq_of_toNat_eq
  show (BitVec.ofNat 4 b.toNat).toNat = b.toNat
  rw [BitVec.toNat_ofNat]
  exact Nat.mod_eq_of_lt b.isLt

/-! ## Fields of an assembled word -/

theorem opClass_append (a : Nibble) (b : Addr12) : opClass (a ++ b) = a := by
  unfold opClass
  rw [BitVec.extractLsb'_append_eq_of_le (by decide)]
  exact BitVec.extractLsb'_eq_self

theorem fieldNNN_append (a : Nibble) (b : Addr12) : fieldNNN (a ++ b) = b := by
  unfold fieldNNN
  rw [BitVec.extractLsb'_append_eq_of_add_le (by decide)]
  exact BitVec.extractLsb'_eq_self

theorem bitsX_append (a b : Nibble) (c : Byte) : bitsX (a ++ (b ++ c)) = b := by
  unfold bitsX
  rw [BitVec.extractLsb'_append_eq_of_add_le (by decide), BitVec.extractLsb'_append_eq_of_le (by decide)]
  exact BitVec.extractLsb'_eq_self

theorem fieldNN_append (a b : Nibble) (c : Byte) : fieldNN (a ++ (b ++ c)) = c := by
  unfold fieldNN
  rw [BitVec.extractLsb'_append_eq_of_add_le (by decide), BitVec.extractLsb'_append_eq_of_add_le (by decide)]
  exact BitVec.extractLsb'_eq_self

theorem bitsY_append (a b c d : Nibble) : bitsY (a ++ (b ++ (c ++ d))) = c := by
  unfold bitsY
  rw [BitVec.extractLsb'_append_eq_of_add_le (by decide), BitVec.extractLsb'_append_eq_of_add_le (by decide),
    BitVec.extractLsb'_append_eq_of_le (by decide)]
  exact BitVec.extractLsb'_eq_self

theorem fieldN_append (a b c d : Nibble) : fieldN (a ++ (b ++ (c ++ d))) = d := by
  unfold fieldN
  rw [BitVec.extractLsb'_append_eq_of_add_le (by decide), BitVec.extractLsb'_append_eq_of_add_le (by decide),
    BitVec.extractLsb'_append_eq_of_add_le (by decide)]
  exact BitVec.extractLsb'_eq_self

/-- The class of a word assembled from a class, a nibble and a byte. -/
theorem opClass_append_nibble_byte (a b : Nibble) (c : Byte) : opClass (a ++ (b ++ c)) = a := opClass_append a (b ++ c)

/-- The class of a word assembled from four nibbles. -/
theorem opClass_append_nibbles (a b c d : Nibble) : opClass (a ++ (b ++ (c ++ d))) = a :=
  opClass_append a (b ++ (c ++ d))

/-- The class of a word assembled from a class, a byte and a nibble. -/
theorem opClass_append_byte_nibble (a : Nibble) (b : Byte) (c : Nibble) : opClass (a ++ (b ++ c)) = a :=
  opClass_append a (b ++ c)

/-- `X` of a word assembled from four nibbles. -/
theorem bitsX_append_nibbles (a b c d : Nibble) : bitsX (a ++ (b ++ (c ++ d))) = b := bitsX_append a b (c ++ d)

/-- Bits 11:4 of a word assembled from a class, a byte and a nibble. -/
theorem bitsXY_append (a : Nibble) (b : Byte) (c : Nibble) : bitsXY (a ++ (b ++ c)) = b := by
  unfold bitsXY
  rw [BitVec.extractLsb'_append_eq_of_add_le (by decide), BitVec.extractLsb'_append_eq_of_le (by decide)]
  exact BitVec.extractLsb'_eq_self

/-- The low nibble of a word assembled from a class, a byte and a nibble. -/
theorem fieldN_append_byte_nibble (a : Nibble) (b : Byte) (c : Nibble) : fieldN (a ++ (b ++ c)) = c := by
  unfold fieldN
  rw [BitVec.extractLsb'_append_eq_of_add_le (by decide), BitVec.extractLsb'_append_eq_of_add_le (by decide)]
  exact BitVec.extractLsb'_eq_self

/-! ## Decoding by class (R74) -/

/-- What a word of each class decodes to. -/
theorem decodeWord_of_class {w : Word} {c : Nibble} (h : opClass w = c) :
    decodeWord w =
      match c.toNat with
      | 0x0 => decodeClass0 w
      | 0x1 => .jp (fieldNNN w)
      | 0x2 => .call (fieldNNN w)
      | 0x3 => .seImm (fieldX w) (fieldNN w)
      | 0x4 => .sneImm (fieldX w) (fieldNN w)
      | 0x5 => .seReg (fieldX w) (fieldY w) (fieldN w)
      | 0x6 => .ldImm (fieldX w) (fieldNN w)
      | 0x7 => .addImm (fieldX w) (fieldNN w)
      | 0x8 => decodeClass8 w
      | 0x9 => .sneReg (fieldX w) (fieldY w) (fieldN w)
      | 0xA => .ldI (fieldNNN w)
      | 0xB => .jpV0 (fieldNNN w)
      | 0xC => .rnd (fieldX w) (fieldNN w)
      | 0xD => .drw (fieldX w) (fieldY w) (fieldN w)
      | _ => .illegalEF (w.extractLsb' 0 13) := by
  subst h
  rfl

/-- What a class-8 word of each sub-selector decodes to (R77, R79). -/
theorem decodeClass8_of_selector {w : Word} {n : Nibble} (h : fieldN w = n) :
    decodeClass8 w =
      match n.toNat with
      | 0x0 => .ldReg (fieldX w) (fieldY w)
      | 0x1 => .orReg (fieldX w) (fieldY w)
      | 0x2 => .andReg (fieldX w) (fieldY w)
      | 0x3 => .xorReg (fieldX w) (fieldY w)
      | 0x4 => .addReg (fieldX w) (fieldY w)
      | 0x5 => .subReg (fieldX w) (fieldY w)
      | 0x6 => .shrReg (fieldX w) (fieldY w)
      | 0x7 => .subnReg (fieldX w) (fieldY w)
      | 0x8 => .illegal88toB (bitsXY w) (w.extractLsb' 0 2)
      | 0x9 => .illegal88toB (bitsXY w) (w.extractLsb' 0 2)
      | 0xA => .illegal88toB (bitsXY w) (w.extractLsb' 0 2)
      | 0xB => .illegal88toB (bitsXY w) (w.extractLsb' 0 2)
      | 0xC => .illegal8CtoD (bitsXY w) (w.extractLsb' 0 1)
      | 0xD => .illegal8CtoD (bitsXY w) (w.extractLsb' 0 1)
      | 0xE => .shlReg (fieldX w) (fieldY w)
      | _ => .illegal8F (bitsXY w) := by
  subst h
  rfl

/-- The class of a word is its number divided by 4096. -/
theorem opClass_toNat (w : Word) : (opClass w).toNat = w.toNat / 4096 := by
  have h := w.isLt
  simp only [opClass, BitVec.extractLsb'_toNat, Nat.shiftRight_eq_div_pow]
  omega

/-- The low nibble of a word is its number modulo 16. -/
theorem fieldN_toNat (w : Word) : (fieldN w).toNat = w.toNat % 16 := by
  simp only [fieldN, BitVec.extractLsb'_toNat, Nat.shiftRight_eq_div_pow]
  omega

/-- The low byte of a word is its number modulo 256. -/
theorem fieldNN_toNat (w : Word) : (fieldNN w).toNat = w.toNat % 256 := by
  simp only [fieldNN, BitVec.extractLsb'_toNat, Nat.shiftRight_eq_div_pow]
  omega

/-- `NNN` is the word's number modulo 4096. -/
theorem fieldNNN_toNat (w : Word) : (fieldNNN w).toNat = w.toNat % 4096 := by
  simp only [fieldNNN, BitVec.extractLsb'_toNat, Nat.shiftRight_eq_div_pow]
  omega

/-- `X` is the second hexadecimal digit of the word. -/
theorem bitsX_toNat (w : Word) : (bitsX w).toNat = w.toNat / 256 % 16 := by
  simp only [bitsX, BitVec.extractLsb'_toNat, Nat.shiftRight_eq_div_pow]

/-- `Y` is the third hexadecimal digit of the word. -/
theorem bitsY_toNat (w : Word) : (bitsY w).toNat = w.toNat / 16 % 16 := by
  simp only [bitsY, BitVec.extractLsb'_toNat, Nat.shiftRight_eq_div_pow]

/-! ## A word is its parts -/

theorem opClass_append_fieldNNN (w : Word) : opClass w ++ fieldNNN w = w := by
  unfold opClass fieldNNN
  rw [BitVec.extractLsb'_append_extractLsb'_eq_extractLsb' (by decide)]
  exact BitVec.extractLsb'_eq_self

theorem bitsX_append_fieldNN (w : Word) : bitsX w ++ fieldNN w = fieldNNN w := by
  unfold bitsX fieldNN fieldNNN
  exact BitVec.extractLsb'_append_extractLsb'_eq_extractLsb' (by decide)

theorem bitsY_append_fieldN (w : Word) : bitsY w ++ fieldN w = fieldNN w := by
  unfold bitsY fieldN fieldNN
  exact BitVec.extractLsb'_append_extractLsb'_eq_extractLsb' (by decide)

theorem bitsX_append_bitsY (w : Word) : bitsX w ++ bitsY w = bitsXY w := by
  unfold bitsX bitsY bitsXY
  exact BitVec.extractLsb'_append_extractLsb'_eq_extractLsb' (by decide)

theorem bitsXY_append_fieldN (w : Word) : bitsXY w ++ fieldN w = fieldNNN w := by
  unfold bitsXY fieldN fieldNNN
  exact BitVec.extractLsb'_append_extractLsb'_eq_extractLsb' (by decide)

/-! ## The bytes of a word (R53) -/

theorem wordOfBytes_bytes (w : Word) : wordOfBytes (w.extractLsb' 8 8) (w.extractLsb' 0 8) = w := by
  unfold wordOfBytes
  rw [BitVec.extractLsb'_append_extractLsb'_eq_extractLsb' (by decide)]
  exact BitVec.extractLsb'_eq_self

/-! ## Masks over an assembled word (R75) -/

theorem allOnes_nibble : (0xF : Nibble) = BitVec.allOnes 4 := rfl

/-- Mask 0xF000 keeps the class. -/
theorem and_F000 (a : Nibble) (b : Addr12) : (a ++ b) &&& (0xF000 : Word) = a ++ (0 : Addr12) := by
  have hm : (0xF000 : Word) = (0xF : Nibble) ++ (0 : Addr12) := rfl
  rw [hm, BitVec.and_append, allOnes_nibble, BitVec.and_allOnes]
  congr 1
  exact BitVec.and_zero

/-- Mask 0xF0FF keeps the class and the low byte. -/
theorem and_F0FF (a b : Nibble) (c : Byte) : (a ++ (b ++ c)) &&& (0xF0FF : Word) = a ++ ((0 : Nibble) ++ c) := by
  have hm : (0xF0FF : Word) = (0xF : Nibble) ++ ((0 : Nibble) ++ BitVec.allOnes 8) := rfl
  rw [hm, BitVec.and_append, BitVec.and_append, allOnes_nibble, BitVec.and_allOnes, BitVec.and_allOnes]
  congr 2
  exact BitVec.and_zero

/-- A mask 0xF00m keeps the class and masks the low nibble. -/
theorem and_F00 (a : Nibble) (b : Byte) (c m : Nibble) :
    (a ++ (b ++ c)) &&& ((0xF : Nibble) ++ ((0 : Byte) ++ m)) = a ++ ((0 : Byte) ++ (c &&& m)) := by
  rw [BitVec.and_append, BitVec.and_append, allOnes_nibble, BitVec.and_allOnes]
  congr 2
  exact BitVec.and_zero

/-- Mask 0xE000 keeps the top three bits. -/
theorem and_E000 (a : BitVec 3) (b : BitVec 13) : (a ++ b) &&& (0xE000 : Word) = a ++ (0 : BitVec 13) := by
  have hm : (0xE000 : Word) = BitVec.allOnes 3 ++ (0 : BitVec 13) := rfl
  rw [hm, BitVec.and_append, BitVec.and_allOnes]
  congr 1
  exact BitVec.and_zero

end Sys2Proof
end

