-- ==== Sys2Proof/Laws/State.lean ====
section
/-! SUPPORT. One lemma per field and update of `State`, true by `rfl`, so that no proof unfolds a record update; and
what `UnchangedBut` says item by item. -/

namespace Sys2Proof.Machine

/-! ### setV -/

@[simp] theorem State.setV_mem (s : State) (r : Reg) (b : Byte) : (s.setV r b).mem = s.mem := rfl
@[simp] theorem State.setV_v (s : State) (r : Reg) (b : Byte) : (s.setV r b).v = s.v.set r b := rfl
@[simp] theorem State.setV_i (s : State) (r : Reg) (b : Byte) : (s.setV r b).i = s.i := rfl
@[simp] theorem State.setV_pc (s : State) (r : Reg) (b : Byte) : (s.setV r b).pc = s.pc := rfl
@[simp] theorem State.setV_stack (s : State) (r : Reg) (b : Byte) : (s.setV r b).stack = s.stack := rfl
@[simp] theorem State.setV_sp (s : State) (r : Reg) (b : Byte) : (s.setV r b).sp = s.sp := rfl
@[simp] theorem State.setV_seed (s : State) (r : Reg) (b : Byte) : (s.setV r b).seed = s.seed := rfl
@[simp] theorem State.setV_display (s : State) (r : Reg) (b : Byte) : (s.setV r b).display = s.display := rfl
@[simp] theorem State.setV_status (s : State) (r : Reg) (b : Byte) : (s.setV r b).status = s.status := rfl

/-! ### setVF -/

@[simp] theorem State.setVF_mem (s : State) (b : Byte) : (s.setVF b).mem = s.mem := rfl
@[simp] theorem State.setVF_v (s : State) (b : Byte) : (s.setVF b).v = s.v.set Config.flagReg b := rfl
@[simp] theorem State.setVF_i (s : State) (b : Byte) : (s.setVF b).i = s.i := rfl
@[simp] theorem State.setVF_pc (s : State) (b : Byte) : (s.setVF b).pc = s.pc := rfl
@[simp] theorem State.setVF_stack (s : State) (b : Byte) : (s.setVF b).stack = s.stack := rfl
@[simp] theorem State.setVF_sp (s : State) (b : Byte) : (s.setVF b).sp = s.sp := rfl
@[simp] theorem State.setVF_seed (s : State) (b : Byte) : (s.setVF b).seed = s.seed := rfl
@[simp] theorem State.setVF_display (s : State) (b : Byte) : (s.setVF b).display = s.display := rfl
@[simp] theorem State.setVF_status (s : State) (b : Byte) : (s.setVF b).status = s.status := rfl

/-! ### setPC -/

@[simp] theorem State.setPC_mem (s : State) (w : Word) : (s.setPC w).mem = s.mem := rfl
@[simp] theorem State.setPC_v (s : State) (w : Word) : (s.setPC w).v = s.v := rfl
@[simp] theorem State.setPC_i (s : State) (w : Word) : (s.setPC w).i = s.i := rfl
@[simp] theorem State.setPC_pc (s : State) (w : Word) : (s.setPC w).pc = w := rfl
@[simp] theorem State.setPC_stack (s : State) (w : Word) : (s.setPC w).stack = s.stack := rfl
@[simp] theorem State.setPC_sp (s : State) (w : Word) : (s.setPC w).sp = s.sp := rfl
@[simp] theorem State.setPC_seed (s : State) (w : Word) : (s.setPC w).seed = s.seed := rfl
@[simp] theorem State.setPC_display (s : State) (w : Word) : (s.setPC w).display = s.display := rfl
@[simp] theorem State.setPC_status (s : State) (w : Word) : (s.setPC w).status = s.status := rfl

/-! ### setI -/

@[simp] theorem State.setI_mem (s : State) (w : Word) : (s.setI w).mem = s.mem := rfl
@[simp] theorem State.setI_v (s : State) (w : Word) : (s.setI w).v = s.v := rfl
@[simp] theorem State.setI_i (s : State) (w : Word) : (s.setI w).i = w := rfl
@[simp] theorem State.setI_pc (s : State) (w : Word) : (s.setI w).pc = s.pc := rfl
@[simp] theorem State.setI_stack (s : State) (w : Word) : (s.setI w).stack = s.stack := rfl
@[simp] theorem State.setI_sp (s : State) (w : Word) : (s.setI w).sp = s.sp := rfl
@[simp] theorem State.setI_seed (s : State) (w : Word) : (s.setI w).seed = s.seed := rfl
@[simp] theorem State.setI_display (s : State) (w : Word) : (s.setI w).display = s.display := rfl
@[simp] theorem State.setI_status (s : State) (w : Word) : (s.setI w).status = s.status := rfl

/-! ### setSeed -/

@[simp] theorem State.setSeed_mem (s : State) (sd : Seed) : (s.setSeed sd).mem = s.mem := rfl
@[simp] theorem State.setSeed_v (s : State) (sd : Seed) : (s.setSeed sd).v = s.v := rfl
@[simp] theorem State.setSeed_i (s : State) (sd : Seed) : (s.setSeed sd).i = s.i := rfl
@[simp] theorem State.setSeed_pc (s : State) (sd : Seed) : (s.setSeed sd).pc = s.pc := rfl
@[simp] theorem State.setSeed_stack (s : State) (sd : Seed) : (s.setSeed sd).stack = s.stack := rfl
@[simp] theorem State.setSeed_sp (s : State) (sd : Seed) : (s.setSeed sd).sp = s.sp := rfl
@[simp] theorem State.setSeed_seed (s : State) (sd : Seed) : (s.setSeed sd).seed = sd := rfl
@[simp] theorem State.setSeed_display (s : State) (sd : Seed) : (s.setSeed sd).display = s.display := rfl
@[simp] theorem State.setSeed_status (s : State) (sd : Seed) : (s.setSeed sd).status = s.status := rfl

/-! ### stop -/

@[simp] theorem State.stop_mem (s : State) (st : Status) : (s.stop st).mem = s.mem := rfl
@[simp] theorem State.stop_v (s : State) (st : Status) : (s.stop st).v = s.v := rfl
@[simp] theorem State.stop_i (s : State) (st : Status) : (s.stop st).i = s.i := rfl
@[simp] theorem State.stop_pc (s : State) (st : Status) : (s.stop st).pc = s.pc := rfl
@[simp] theorem State.stop_stack (s : State) (st : Status) : (s.stop st).stack = s.stack := rfl
@[simp] theorem State.stop_sp (s : State) (st : Status) : (s.stop st).sp = s.sp := rfl
@[simp] theorem State.stop_seed (s : State) (st : Status) : (s.stop st).seed = s.seed := rfl
@[simp] theorem State.stop_display (s : State) (st : Status) : (s.stop st).display = s.display := rfl
@[simp] theorem State.stop_status (s : State) (st : Status) : (s.stop st).status = st := rfl

/-! ### setResultThenFlag -/

@[simp] theorem State.setResultThenFlag_mem (s : State) (x : Reg) (result flag : Byte) : (s.setResultThenFlag x result flag).mem = s.mem := rfl
@[simp] theorem State.setResultThenFlag_v (s : State) (x : Reg) (result flag : Byte) : (s.setResultThenFlag x result flag).v = (s.v.set x result).set Config.flagReg flag := rfl
@[simp] theorem State.setResultThenFlag_i (s : State) (x : Reg) (result flag : Byte) : (s.setResultThenFlag x result flag).i = s.i := rfl
@[simp] theorem State.setResultThenFlag_pc (s : State) (x : Reg) (result flag : Byte) : (s.setResultThenFlag x result flag).pc = s.pc := rfl
@[simp] theorem State.setResultThenFlag_stack (s : State) (x : Reg) (result flag : Byte) : (s.setResultThenFlag x result flag).stack = s.stack := rfl
@[simp] theorem State.setResultThenFlag_sp (s : State) (x : Reg) (result flag : Byte) : (s.setResultThenFlag x result flag).sp = s.sp := rfl
@[simp] theorem State.setResultThenFlag_seed (s : State) (x : Reg) (result flag : Byte) : (s.setResultThenFlag x result flag).seed = s.seed := rfl
@[simp] theorem State.setResultThenFlag_display (s : State) (x : Reg) (result flag : Byte) : (s.setResultThenFlag x result flag).display = s.display := rfl
@[simp] theorem State.setResultThenFlag_status (s : State) (x : Reg) (result flag : Byte) : (s.setResultThenFlag x result flag).status = s.status := rfl

/-! ### advancePC -/

@[simp] theorem State.advancePC_mem (s : State) : s.advancePC.mem = s.mem := rfl
@[simp] theorem State.advancePC_v (s : State) : s.advancePC.v = s.v := rfl
@[simp] theorem State.advancePC_i (s : State) : s.advancePC.i = s.i := rfl
@[simp] theorem State.advancePC_pc (s : State) : s.advancePC.pc = s.pc + 2 := rfl
@[simp] theorem State.advancePC_stack (s : State) : s.advancePC.stack = s.stack := rfl
@[simp] theorem State.advancePC_sp (s : State) : s.advancePC.sp = s.sp := rfl
@[simp] theorem State.advancePC_seed (s : State) : s.advancePC.seed = s.seed := rfl
@[simp] theorem State.advancePC_display (s : State) : s.advancePC.display = s.display := rfl
@[simp] theorem State.advancePC_status (s : State) : s.advancePC.status = s.status := rfl

/-! ### loadBytes -/

@[simp] theorem State.loadBytes_mem (s : State) (buf : List Byte) : (s.loadBytes buf).mem = s.mem.writeBytes Config.progBase buf := rfl
@[simp] theorem State.loadBytes_v (s : State) (buf : List Byte) : (s.loadBytes buf).v = s.v := rfl
@[simp] theorem State.loadBytes_i (s : State) (buf : List Byte) : (s.loadBytes buf).i = s.i := rfl
@[simp] theorem State.loadBytes_pc (s : State) (buf : List Byte) : (s.loadBytes buf).pc = s.pc := rfl
@[simp] theorem State.loadBytes_stack (s : State) (buf : List Byte) : (s.loadBytes buf).stack = s.stack := rfl
@[simp] theorem State.loadBytes_sp (s : State) (buf : List Byte) : (s.loadBytes buf).sp = s.sp := rfl
@[simp] theorem State.loadBytes_seed (s : State) (buf : List Byte) : (s.loadBytes buf).seed = s.seed := rfl
@[simp] theorem State.loadBytes_display (s : State) (buf : List Byte) : (s.loadBytes buf).display = s.display := rfl
@[simp] theorem State.loadBytes_status (s : State) (buf : List Byte) : (s.loadBytes buf).status = s.status := rfl

/-! ### skipIf -/

@[simp] theorem State.skipIf_mem (s : State) (c : Bool) : (s.skipIf c).mem = s.mem := by cases c <;> rfl
@[simp] theorem State.skipIf_v (s : State) (c : Bool) : (s.skipIf c).v = s.v := by cases c <;> rfl
@[simp] theorem State.skipIf_i (s : State) (c : Bool) : (s.skipIf c).i = s.i := by cases c <;> rfl
theorem State.skipIf_pc (s : State) (c : Bool) : (s.skipIf c).pc = if c then s.pc + 2 else s.pc := by
  cases c <;> rfl

@[simp] theorem State.skipIf_stack (s : State) (c : Bool) : (s.skipIf c).stack = s.stack := by cases c <;> rfl
@[simp] theorem State.skipIf_sp (s : State) (c : Bool) : (s.skipIf c).sp = s.sp := by cases c <;> rfl
@[simp] theorem State.skipIf_seed (s : State) (c : Bool) : (s.skipIf c).seed = s.seed := by cases c <;> rfl
@[simp] theorem State.skipIf_display (s : State) (c : Bool) : (s.skipIf c).display = s.display := by cases c <;> rfl
@[simp] theorem State.skipIf_status (s : State) (c : Bool) : (s.skipIf c).status = s.status := by cases c <;> rfl

/-! ### Registers read through `getV` -/

@[simp] theorem State.getV_setV_same (s : State) (r : Reg) (b : Byte) : (s.setV r b).getV r = b := by
  simp [State.getV, State.setV]

theorem State.getV_setV_other (s : State) (q r : Reg) (b : Byte) (h : q ≠ r) : (s.setV r b).getV q = s.getV q := by
  have hv : r.val ≠ q.val := fun e => h (Fin.ext e.symm)
  simp [State.getV, State.setV, Vector.getElem_set_ne, hv]

/-- Reading a register after writing one (R9). -/
theorem State.getV_setV (s : State) (q r : Reg) (b : Byte) :
    (s.setV r b).getV q = if q = r then b else s.getV q := by
  split
  · next h => subst h; exact s.getV_setV_same q b
  · next h => exact s.getV_setV_other q r b h

/-- The flag is what `VF` holds after a flag-setting write, whatever the destination (R111). -/
@[simp] theorem State.getV_setResultThenFlag_flag (s : State) (x : Reg) (res flag : Byte) :
    (s.setResultThenFlag x res flag).getV 15 = flag := State.getV_setV_same _ _ _

/-- A destination other than `VF` keeps the result (R111). -/
theorem State.getV_setResultThenFlag_dest (s : State) (x : Reg) (res flag : Byte) (h : x ≠ 15) :
    (s.setResultThenFlag x res flag).getV x = res := by
  rw [State.setResultThenFlag, State.setVF, State.getV_setV_other _ _ _ _ h, State.getV_setV_same]

/-- Every other register is unchanged (R111). -/
theorem State.getV_setResultThenFlag_other (s : State) (q x : Reg) (res flag : Byte) (hq : q ≠ x) (hf : q ≠ 15) :
    (s.setResultThenFlag x res flag).getV q = s.getV q := by
  rw [State.setResultThenFlag, State.setVF, State.getV_setV_other _ _ _ _ hf, State.getV_setV_other _ _ _ _ hq]

theorem State.getV_congr {s t : State} (h : t.v = s.v) (r : Reg) : t.getV r = s.getV r := by
  simp [State.getV, h]

/-! ### Frames -/

theorem regsUnchangedBut_setV (s : State) (r : Reg) (b : Byte) : RegsUnchangedBut [r] s (s.setV r b) := by
  intro q hq
  exact s.getV_setV_other q r b (by simpa using hq)

theorem regsUnchangedBut_setResultThenFlag (s : State) (x : Reg) (res flag : Byte) :
    RegsUnchangedBut [x, 15] s (s.setResultThenFlag x res flag) := by
  intro q hq
  have h : q ≠ x ∧ q ≠ 15 := by simpa using hq
  exact s.getV_setResultThenFlag_other q x res flag h.1 h.2

theorem UnchangedBut.mono {ps qs : List Part} {s t : State} (h : UnchangedBut ps s t) (hs : ps ⊆ qs) :
    UnchangedBut qs s t := fun p hp => h p fun hm => hp (hs hm)

/-- An item listed or unchanged, one by one. -/
theorem unchangedBut_of {ps : List Part} {s t : State} (h : ∀ p, p ∈ ps ∨ SameAt s t p) : UnchangedBut ps s t :=
  fun p hp => (h p).resolve_left hp

theorem unchangedBut_setV (s : State) (r : Reg) (b : Byte) : UnchangedBut [.v] s (s.setV r b) := by
  refine unchangedBut_of fun p => ?_
  cases p <;> simp [SameAt]

theorem unchangedBut_setResultThenFlag (s : State) (x : Reg) (res flag : Byte) :
    UnchangedBut [.v] s (s.setResultThenFlag x res flag) := by
  refine unchangedBut_of fun p => ?_
  cases p <;> simp [SameAt]

theorem unchangedBut_setPC (s : State) (w : Word) : UnchangedBut [.pc] s (s.setPC w) := by
  refine unchangedBut_of fun p => ?_
  cases p <;> simp [SameAt]

theorem unchangedBut_setI (s : State) (w : Word) : UnchangedBut [.i] s (s.setI w) := by
  refine unchangedBut_of fun p => ?_
  cases p <;> simp [SameAt]

theorem unchangedBut_stop (s : State) (st : Status) : UnchangedBut [.status] s (s.stop st) := by
  refine unchangedBut_of fun p => ?_
  cases p <;> simp [SameAt]

theorem unchangedBut_skipIf (s : State) (c : Bool) : UnchangedBut [.pc] s (s.skipIf c) := by
  refine unchangedBut_of fun p => ?_
  cases p <;> simp [SameAt]

end Sys2Proof.Machine
end

