-- ==== Sys2Proof/Laws/Display.lean ====
section
/-! SUPPORT. The display grid and the compositor: read after write, and what a run of bits, a run of rows and a whole
composite leave in every cell, in the cursor and in the note of a false result (R161 to R164). -/

namespace Sys2Proof.Machine

theorem Display.read_of_lt (d : Display) {x y : Nat} (hx : x < 64) (hy : y < 32) : d.read x y = (d[x])[y] :=
  dif_pos ⟨hx, hy⟩

/-- Reading a cell after writing one on the grid. -/
theorem Display.read_write (d : Display) {x y : Nat} (hx : x < 64) (hy : y < 32) (b : Bool) (cx cy : Nat) :
    (d.write x y b).read cx cy = if cx = x ∧ cy = y then b else d.read cx cy := by
  have hxy : x < Config.dispW ∧ y < Config.dispH := ⟨hx, hy⟩
  unfold Display.write Display.read
  rw [dif_pos hxy]
  by_cases hin : cx < Config.dispW ∧ cy < Config.dispH
  · rw [dif_pos hin, dif_pos hin]
    by_cases h1 : cx = x
    · subst h1
      by_cases h2 : cy = y
      · subst h2; simp
      · have h2' : y ≠ cy := fun e => h2 e.symm
        simp [Vector.getElem_set_ne, h2, h2']
    · have h1' : x ≠ cx := fun e => h1 e.symm
      simp [Vector.getElem_set_ne, h1, h1']
  · rw [dif_neg hin, dif_neg hin, if_neg]
    rintro ⟨rfl, rfl⟩
    exact hin hxy

/-- Two grids that read alike in every cell are equal. -/
theorem Display.ext_of_read {d e : Display} (h : ∀ x y, x < 64 → y < 32 → d.read x y = e.read x y) : d = e := by
  apply Vector.ext
  intro x hx
  apply Vector.ext
  intro y hy
  have := h x y hx hy
  rwa [Display.read_of_lt d hx hy, Display.read_of_lt e hx hy] at this

/-! ## The bits of a row byte -/

@[simp] theorem spriteBits_length (b : Byte) : (spriteBits b).length = 8 := by simp [spriteBits]

theorem spriteBits_getElem (b : Byte) (k : Nat) (h : k < (spriteBits b).length) :
    (spriteBits b)[k] = spriteBit b k := by simp [spriteBits]

/-- Bit `k` of a sprite byte, as a number (R161). -/
theorem spriteBit_eq (b : Byte) (k : Nat) : spriteBit b k = (b.toNat / 2 ^ (7 - k) % 2 == 1) := by
  unfold spriteBit
  rw [Bool.eq_iff_iff, beq_iff_eq, beq_iff_eq, ← BitVec.toNat_inj, BitVec.toNat_and, BitVec.toNat_ushiftRight,
    Nat.shiftRight_eq_div_pow]
  simp [Nat.and_one_is_mod]

/-! ## A run of bits in one row -/

@[simp] theorem Blit.bits_cx (y : Nat) (bs : List Bool) (p : Blit) : (Blit.bits y bs p).cx = p.cx + bs.length := by
  induction bs generalizing p with
  | nil => rfl
  | cons b bs ih =>
    have hcx : (p.bit y b).cx = p.cx + 1 := rfl
    rw [Blit.bits, ih, hcx, List.length_cons]; omega

/-- Every cell after a run of bits on the grid row `y`. -/
theorem Blit.bits_read {y : Nat} (hy : y < 32) (bs : List Bool) (p : Blit) (hx : p.cx + bs.length ≤ 64) (cx cy : Nat) :
    (Blit.bits y bs p).grid.read cx cy =
      if h : cy = y ∧ p.cx ≤ cx ∧ cx - p.cx < bs.length then xor (p.grid.read cx cy) (bs[cx - p.cx]'h.2.2)
      else p.grid.read cx cy := by
  induction bs generalizing p with
  | nil => simp [Blit.bits]
  | cons b bs ih =>
    have hlen : p.cx + (bs.length + 1) ≤ 64 := hx
    have hp : p.cx < 64 := by omega
    have hcx : (p.bit y b).cx = p.cx + 1 := rfl
    have hgrid : (p.bit y b).grid = p.grid.write p.cx y (xor (p.grid.read p.cx y) b) := rfl
    rw [Blit.bits, ih _ (by rw [hcx]; omega), hgrid, Display.read_write _ hp hy]
    by_cases hcy : cy = y
    · subst hcy
      by_cases h0 : cx = p.cx
      · subst h0
        rw [dif_neg (by rw [hcx]; omega), if_pos ⟨rfl, rfl⟩,
          dif_pos ⟨rfl, Nat.le_refl _, by rw [Nat.sub_self]; exact Nat.succ_pos _⟩]
        simp only [Nat.sub_self, List.getElem_cons_zero]
      · have hne : ¬ (cx = p.cx ∧ cy = cy) := fun h => h0 h.1
        by_cases hin : p.cx + 1 ≤ cx ∧ cx - (p.cx + 1) < bs.length
        · rw [dif_pos ⟨rfl, by rw [hcx]; exact hin⟩, if_neg hne,
            dif_pos ⟨rfl, by omega, by rw [List.length_cons]; omega⟩]
          have hstep : cx - p.cx = (cx - (p.cx + 1)) + 1 := by omega
          simp only [hcx, hstep, List.getElem_cons_succ]
        · rw [dif_neg (by rw [hcx]; exact fun h => hin h.2), if_neg hne,
            dif_neg (by rw [List.length_cons]; omega)]
    · rw [dif_neg (fun h => hcy h.1), if_neg (fun h => hcy h.2), dif_neg (fun h => hcy h.1)]

/-- Whether a false result has been noted after a run of bits on the grid row `y`. -/
theorem Blit.bits_anyFalse {y : Nat} (hy : y < 32) (bs : List Bool) (p : Blit) (hx : p.cx + bs.length ≤ 64) :
    (Blit.bits y bs p).anyFalse = true ↔
      p.anyFalse = true ∨ ∃ (k : Nat) (h : k < bs.length), xor (p.grid.read (p.cx + k) y) bs[k] = false := by
  induction bs generalizing p with
  | nil => simp [Blit.bits]
  | cons b bs ih =>
    have hlen : p.cx + (bs.length + 1) ≤ 64 := hx
    have hp : p.cx < 64 := by omega
    have hcx : (p.bit y b).cx = p.cx + 1 := rfl
    have hread : ∀ k, (p.bit y b).grid.read (p.cx + 1 + k) y = p.grid.read (p.cx + (k + 1)) y := by
      intro k
      have hgrid : (p.bit y b).grid = p.grid.write p.cx y (xor (p.grid.read p.cx y) b) := rfl
      rw [hgrid, Display.read_write _ hp hy, if_neg (by omega)]
      congr 1
      omega
    have hany : (p.bit y b).anyFalse = true ↔ p.anyFalse = true ∨ xor (p.grid.read (p.cx + 0) y) b = false := by
      simp [Blit.bit]
    rw [Blit.bits, ih _ (by rw [hcx]; omega), hany]
    simp only [hcx, hread]
    constructor
    · rintro ((h | h) | ⟨k, hk, h⟩)
      · exact .inl h
      · exact .inr ⟨0, Nat.succ_pos _, h⟩
      · exact .inr ⟨k + 1, Nat.succ_lt_succ hk, h⟩
    · rintro (h | ⟨k, hk, h⟩)
      · exact .inl (.inl h)
      · cases k with
        | zero => exact .inl (.inr h)
        | succ k => exact .inr ⟨k, Nat.lt_of_succ_lt_succ hk, h⟩

/-! ## A run of rows -/

/-- Every cell after `n` sprite rows from the grid row `y` on (R161, R164): the cell of row `r`, bit `k` is xored with
that bit, every other cell is as before. -/
theorem Blit.rows_read (mem : Memory) (addr y n : Nat) (p : Blit) (hy : y + n ≤ 32) (hx : p.cx + 8 * n ≤ 64)
    (cx cy : Nat) :
    (Blit.rows mem addr y n p).grid.read cx cy =
      if y ≤ cy ∧ cy < y + n ∧ p.cx + 8 * (cy - y) ≤ cx ∧ cx < p.cx + 8 * (cy - y) + 8 then
        xor (p.grid.read cx cy) (spriteBit (mem.read (addr + (cy - y))) (cx - p.cx - 8 * (cy - y)))
      else p.grid.read cx cy := by
  induction n generalizing addr y p with
  | zero => rw [Blit.rows, if_neg (by omega)]
  | succ n ih =>
    have hlen := spriteBits_length (mem.read addr)
    have hcx : (Blit.bits y (spriteBits (mem.read addr)) p).cx = p.cx + 8 := by rw [Blit.bits_cx, hlen]
    rw [Blit.rows, ih _ _ _ (by omega) (by rw [hcx]; omega), Blit.bits_read (by omega) _ _ (by rw [hlen]; omega), hcx]
    by_cases h0 : cy = y
    · subst h0
      rw [if_neg (by omega)]
      by_cases hin : p.cx ≤ cx ∧ cx - p.cx < 8
      · rw [dif_pos ⟨rfl, hin.1, by rw [hlen]; exact hin.2⟩, if_pos (by omega), spriteBits_getElem]
        simp
      · rw [dif_neg (by rw [hlen]; exact fun h => hin h.2), if_neg (by omega)]
    · rw [dif_neg (fun h => h0 h.1)]
      by_cases hin : y + 1 ≤ cy ∧ cy < y + 1 + n ∧ p.cx + 8 + 8 * (cy - (y + 1)) ≤ cx ∧
          cx < p.cx + 8 + 8 * (cy - (y + 1)) + 8
      · rw [if_pos hin, if_pos (by omega)]
        have e1 : addr + 1 + (cy - (y + 1)) = addr + (cy - y) := by omega
        have e2 : cx - (p.cx + 8) - 8 * (cy - (y + 1)) = cx - p.cx - 8 * (cy - y) := by omega
        rw [e1, e2]
      · rw [if_neg hin, if_neg (by omega)]

/-- Whether a false result has been noted after `n` sprite rows (R163). -/
theorem Blit.rows_anyFalse (mem : Memory) (addr y n : Nat) (p : Blit) (hy : y + n ≤ 32) (hx : p.cx + 8 * n ≤ 64) :
    (Blit.rows mem addr y n p).anyFalse = true ↔
      p.anyFalse = true ∨ ∃ r k, r < n ∧ k < 8 ∧
        xor (p.grid.read (p.cx + 8 * r + k) (y + r)) (spriteBit (mem.read (addr + r)) k) = false := by
  induction n generalizing addr y p with
  | zero => simp [Blit.rows]
  | succ n ih =>
    have hlen := spriteBits_length (mem.read addr)
    have hcx : (Blit.bits y (spriteBits (mem.read addr)) p).cx = p.cx + 8 := by rw [Blit.bits_cx, hlen]
    have hread : ∀ r k, (Blit.bits y (spriteBits (mem.read addr)) p).grid.read (p.cx + 8 + 8 * r + k) (y + 1 + r) =
        p.grid.read (p.cx + 8 * (r + 1) + k) (y + (r + 1)) := by
      intro r k
      rw [Blit.bits_read (by omega) _ _ (by rw [hlen]; omega), dif_neg (by omega)]
      congr 1 <;> omega
    have haddr : ∀ r, addr + 1 + r = addr + (r + 1) := fun r => by omega
    rw [Blit.rows, ih _ _ _ (by omega) (by rw [hcx]; omega), Blit.bits_anyFalse (by omega) _ _ (by rw [hlen]; omega), hcx]
    simp only [hread, haddr, spriteBits_getElem]
    constructor
    · rintro ((h | ⟨k, hk, h⟩) | ⟨r, k, hr, hk, h⟩)
      · exact .inl h
      · exact .inr ⟨0, k, Nat.succ_pos _, by rwa [hlen] at hk, h⟩
      · exact .inr ⟨r + 1, k, Nat.succ_lt_succ hr, hk, h⟩
    · rintro (h | ⟨r, k, hr, hk, h⟩)
      · exact .inl (.inl h)
      · cases r with
        | zero => exact .inl (.inr ⟨k, by rw [hlen]; exact hk, h⟩)
        | succ r => exact .inr ⟨r, k, Nat.lt_of_succ_lt_succ hr, hk, h⟩

/-! ## The composite of sampled operands -/

/-- The bounds the meaning checks leave every row on the grid (R162). -/
theorem DrawOperands.bounds_of_not_drawsOutOfRange {o : DrawOperands} (h : o.drawsOutOfRange = false) (hn : 0 < o.n) :
    o.x0 + 8 * o.n ≤ 64 ∧ o.y0 + o.n ≤ 32 := by
  simp [DrawOperands.drawsOutOfRange, hn] at h
  exact h

/-- A draw of no rows changes nothing (D24). -/
theorem composite_zero {o : DrawOperands} (hn : o.n = 0) (s : State) :
    composite o s = { grid := s.display, anyFalse := false, cx := o.x0 } := by
  simp [composite, hn, Blit.rows]

/-- The cell of row `r`, bit `k` after the composite (R161, R164). -/
theorem composite_read_cell {o : DrawOperands} (hb : o.drawsOutOfRange = false) (s : State) {r k : Nat} (hr : r < o.n)
    (hk : k < 8) : (composite o s).grid.read (o.x0 + 8 * r + k) (o.y0 + r) = drawnCell o s r k := by
  obtain ⟨h1, h2⟩ := DrawOperands.bounds_of_not_drawsOutOfRange hb (by omega)
  have e1 : o.y0 + r - o.y0 = r := by omega
  have e2 : o.x0 + 8 * r + k - o.x0 - 8 * r = k := by omega
  rw [composite, Blit.rows_read _ _ _ _ _ h2 h1, e1, if_pos ⟨by omega, by omega, by dsimp only; omega, by dsimp only; omega⟩, e2,
    spriteBit_eq, drawnCell]

/-- A cell the draw does not touch is as before (R161). -/
theorem composite_read_other {o : DrawOperands} (hb : o.drawsOutOfRange = false) (s : State) {cx cy : Nat}
    (h : ¬ o.touches cx cy) : (composite o s).grid.read cx cy = s.display.read cx cy := by
  rcases Nat.eq_zero_or_pos o.n with hn | hn
  · rw [composite_zero hn]
  · obtain ⟨h1, h2⟩ := DrawOperands.bounds_of_not_drawsOutOfRange hb hn
    rw [composite, Blit.rows_read _ _ _ _ _ h2 h1, if_neg]
    rintro ⟨ha, hb, hc, hd⟩
    dsimp only at hc hd
    refine h ⟨cy - o.y0, cx - o.x0 - 8 * (cy - o.y0), by omega, by omega, ?_, ?_⟩
    · omega
    · omega

/-- Whether the composite notes a false result: some cell the draw wrote ended false (R163). -/
theorem composite_anyFalse {o : DrawOperands} (hb : o.drawsOutOfRange = false) (s : State) :
    (composite o s).anyFalse = true ↔ ∃ r k, r < o.n ∧ k < 8 ∧ drawnCell o s r k = false := by
  rcases Nat.eq_zero_or_pos o.n with hn | hn
  · rw [composite_zero hn]
    constructor
    · intro h; cases h
    · rintro ⟨r, k, hr, -⟩; omega
  · obtain ⟨h1, h2⟩ := DrawOperands.bounds_of_not_drawsOutOfRange hb hn
    rw [composite, Blit.rows_anyFalse _ _ _ _ _ h2 h1]
    simp only [spriteBit_eq, drawnCell, Bool.false_eq_true, false_or]

end Sys2Proof.Machine
end

