-- ==== Sys2Proof/Laws/Memory.lean ====
section
/-! SUPPORT. Memory: read after write, the canonical form is kept by every memory operation, and two memories in
canonical form that read alike are equal. -/

namespace Sys2Proof.Machine

@[simp] theorem Memory.read_nil (a : Nat) : Memory.read [] a = unlistedByte := rfl

theorem Memory.read_cons (k : Nat) (b : Byte) (m : Memory) (a : Nat) :
    Memory.read ((k, b) :: m) a = if a = k then b else Memory.read m a := rfl

/-- The canonical form of a list, cell by cell. -/
theorem Memory.wf_cons {k : Nat} {b : Byte} {m : Memory} :
    Memory.wf ((k, b) :: m) ↔
      (∀ c ∈ m, k < c.1) ∧ k < Config.memSize ∧ b ≠ unlistedByte ∧ Memory.wf m := by
  unfold Memory.wf
  simp only [List.pairwise_cons, List.forall_mem_cons]
  constructor
  · rintro ⟨⟨h1, h2⟩, ⟨h3, h4⟩, h5⟩; exact ⟨h1, h3, h4, h2, h5⟩
  · rintro ⟨h1, h3, h4, h2, h5⟩; exact ⟨⟨h1, h2⟩, ⟨h3, h4⟩, h5⟩

theorem Memory.wf_nil : Memory.wf [] := ⟨List.Pairwise.nil, by simp⟩

/-- An address below every listed one reads the unlisted value. -/
theorem Memory.read_below {m : Memory} {a : Nat} (h : ∀ c ∈ m, a < c.1) : m.read a = unlistedByte := by
  induction m with
  | nil => rfl
  | cons c m ih =>
    obtain ⟨k, b⟩ := c
    have hk : a < k := h (k, b) (List.mem_cons_self ..)
    rw [Memory.read_cons, if_neg (Nat.ne_of_lt hk)]
    exact ih fun c hc => h c (List.mem_cons_of_mem _ hc)

/-- Reading after a cell is set. -/
theorem Memory.read_put {m : Memory} (hm : m.wf) (a : Nat) (b : Byte) (c : Nat) :
    (m.put a b).read c = if c = a then b else m.read c := by
  induction m with
  | nil =>
    by_cases hb : b = unlistedByte
    · simp [Memory.put, hb]
    · simp [Memory.put, hb, Memory.read_cons]
  | cons d m ih =>
    obtain ⟨k, e⟩ := d
    obtain ⟨hlow, -, -, hwf⟩ := Memory.wf_cons.1 hm
    unfold Memory.put
    by_cases hak : a < k
    · rw [if_pos hak]
      by_cases hb : b = unlistedByte
      · rw [if_pos hb]
        by_cases hc : c = a
        · subst hc
          rw [if_pos rfl, hb]
          refine Memory.read_below fun d hd => ?_
          rcases List.mem_cons.1 hd with rfl | hd
          · exact hak
          · exact Nat.lt_trans hak (hlow d hd)
        · rw [if_neg hc]
      · rw [if_neg hb, Memory.read_cons]
    · rw [if_neg hak]
      by_cases hk : a = k
      · subst hk
        rw [if_pos rfl]
        by_cases hb : b = unlistedByte
        · rw [if_pos hb, Memory.read_cons]
          by_cases hc : c = a
          · subst hc; rw [if_pos rfl, hb]; exact Memory.read_below hlow
          · rw [if_neg hc, if_neg hc]
        · rw [if_neg hb, Memory.read_cons, Memory.read_cons]
          by_cases hc : c = a
          · rw [if_pos hc, if_pos hc]
          · rw [if_neg hc, if_neg hc, if_neg hc]
      · rw [if_neg hk, Memory.read_cons, Memory.read_cons, ih hwf]
        by_cases hc : c = k
        · subst hc; rw [if_pos rfl, if_neg (fun h => hk h.symm), if_pos rfl]
        · rw [if_neg hc, if_neg hc]

/-- Setting a cell lists no address but those listed before and its own. -/
theorem Memory.mem_put {m : Memory} {a : Nat} {b : Byte} {c : Host.Cell} (h : c ∈ m.put a b) :
    c ∈ m ∨ (c = (a, b) ∧ b ≠ unlistedByte) := by
  induction m with
  | nil =>
    by_cases hb : b = unlistedByte
    · simp [Memory.put, hb] at h
    · simp [Memory.put, hb] at h; exact .inr ⟨h, hb⟩
  | cons d m ih =>
    obtain ⟨k, e⟩ := d
    unfold Memory.put at h
    by_cases hb : b = unlistedByte
    · simp only [if_pos hb] at h
      split at h
      · exact .inl h
      · split at h
        · exact .inl (List.mem_cons_of_mem _ h)
        · rcases List.mem_cons.1 h with rfl | h
          · exact .inl (List.mem_cons_self ..)
          · exact (ih h).imp (List.mem_cons_of_mem _) id
    · simp only [if_neg hb] at h
      split at h
      · rcases List.mem_cons.1 h with rfl | h
        · exact .inr ⟨rfl, hb⟩
        · exact .inl h
      · split at h
        · rcases List.mem_cons.1 h with rfl | h
          · exact .inr ⟨rfl, hb⟩
          · exact .inl (List.mem_cons_of_mem _ h)
        · rcases List.mem_cons.1 h with rfl | h
          · exact .inl (List.mem_cons_self ..)
          · exact (ih h).imp (List.mem_cons_of_mem _) id

/-- Setting a cell of the address space keeps the canonical form. -/
theorem Memory.put_wf {m : Memory} (hm : m.wf) {a : Nat} (ha : a < Config.memSize) (b : Byte) : (m.put a b).wf := by
  induction m with
  | nil =>
    by_cases hb : b = unlistedByte
    · simpa [Memory.put, hb] using Memory.wf_nil
    · simp only [Memory.put, if_neg hb]
      exact Memory.wf_cons.2 ⟨by simp, ha, hb, Memory.wf_nil⟩
  | cons d m ih =>
    obtain ⟨k, e⟩ := d
    obtain ⟨hlow, hk, he, hwf⟩ := Memory.wf_cons.1 hm
    unfold Memory.put
    by_cases hak : a < k
    · rw [if_pos hak]
      by_cases hb : b = unlistedByte
      · rw [if_pos hb]; exact hm
      · rw [if_neg hb]
        refine Memory.wf_cons.2 ⟨fun c hc => ?_, ha, hb, hm⟩
        rcases List.mem_cons.1 hc with rfl | hc
        · exact hak
        · exact Nat.lt_trans hak (hlow c hc)
    · rw [if_neg hak]
      by_cases hka : a = k
      · subst hka
        rw [if_pos rfl]
        by_cases hb : b = unlistedByte
        · rw [if_pos hb]; exact hwf
        · rw [if_neg hb]; exact Memory.wf_cons.2 ⟨hlow, ha, hb, hwf⟩
      · rw [if_neg hka]
        refine Memory.wf_cons.2 ⟨fun c hc => ?_, hk, he, ih hwf⟩
        rcases Memory.mem_put hc with hc | ⟨rfl, -⟩
        · exact hlow c hc
        · exact Nat.lt_of_le_of_ne (Nat.not_lt.1 hak) fun h => hka h.symm

/-- Every write keeps the canonical form. -/
theorem Memory.write_wf {m : Memory} (hm : m.wf) (a : Nat) (b : Byte) : (m.write a b).wf := by
  unfold Memory.write
  split
  · next h => exact Memory.put_wf hm h b
  · exact hm

/-- Reading after a write in the address space. -/
theorem Memory.read_write {m : Memory} (hm : m.wf) {a : Nat} (ha : a < Config.memSize) (b : Byte) (c : Nat) :
    (m.write a b).read c = if c = a then b else m.read c := by
  rw [Memory.write, if_pos ha, Memory.read_put hm]

/-- The copy of a byte buffer keeps the canonical form. -/
theorem Memory.writeBytes_wf {m : Memory} (hm : m.wf) (a : Nat) (bs : List Byte) : (m.writeBytes a bs).wf := by
  induction bs generalizing m a with
  | nil => exact hm
  | cons b bs ih => exact ih (Memory.write_wf hm a b) (a + 1)

/-- Reading after the copy of a byte buffer that fits in the address space: the buffer's byte inside, the old byte
outside. -/
theorem Memory.read_writeBytes {m : Memory} (hm : m.wf) {a : Nat} {bs : List Byte} (hfit : a + bs.length ≤ Config.memSize)
    (c : Nat) :
    (m.writeBytes a bs).read c =
      if h : a ≤ c ∧ c - a < bs.length then bs[c - a]'h.2 else m.read c := by
  induction bs generalizing m a with
  | nil => simp [Memory.writeBytes]
  | cons b bs ih =>
    have hlen : a + (bs.length + 1) ≤ Config.memSize := hfit
    have ha : a < Config.memSize := Nat.lt_of_lt_of_le (Nat.lt_add_of_pos_right (Nat.succ_pos _)) hlen
    rw [Memory.writeBytes, ih (Memory.write_wf hm a b) (by omega), Memory.read_write hm ha]
    by_cases hc : c = a
    · subst hc
      rw [dif_neg (fun h => Nat.not_succ_le_self c h.1), if_pos rfl,
        dif_pos ⟨Nat.le_refl c, by rw [Nat.sub_self]; exact Nat.succ_pos _⟩]
      simp only [Nat.sub_self, List.getElem_cons_zero]
    · by_cases hin : a + 1 ≤ c ∧ c - (a + 1) < bs.length
      · have hin' : a ≤ c ∧ c - a < (b :: bs).length := by simp; omega
        rw [dif_pos hin, dif_pos hin']
        have hstep : c - a = (c - (a + 1)) + 1 := by omega
        simp [hstep]
      · have hout : ¬ (a ≤ c ∧ c - a < (b :: bs).length) := by simp; omega
        rw [dif_neg hin, dif_neg hout, if_neg hc]

/-- Two memories in canonical form that read alike everywhere are equal. -/
theorem Memory.ext_of_wf {m n : Memory} (hm : m.wf) (hn : n.wf) (h : ∀ a, m.read a = n.read a) : m = n := by
  induction m generalizing n with
  | nil =>
    cases n with
    | nil => rfl
    | cons d n =>
      obtain ⟨k, e⟩ := d
      obtain ⟨-, -, he, -⟩ := Memory.wf_cons.1 hn
      exact absurd (by simpa [Memory.read_cons] using (h k).symm) he
  | cons c m ih =>
    obtain ⟨j, b⟩ := c
    obtain ⟨hlowm, -, hb, hwm⟩ := Memory.wf_cons.1 hm
    cases n with
    | nil => exact absurd (by simpa [Memory.read_cons] using h j) hb
    | cons d n =>
      obtain ⟨k, e⟩ := d
      obtain ⟨hlown, -, he, hwn⟩ := Memory.wf_cons.1 hn
      have hjk : j = k := by
        rcases Nat.lt_trichotomy j k with hlt | heq | hgt
        · refine absurd ?_ hb
          have := h j
          rw [Memory.read_cons, if_pos rfl] at this
          rw [this]
          refine Memory.read_below fun d hd => ?_
          rcases List.mem_cons.1 hd with rfl | hd
          · exact hlt
          · exact Nat.lt_trans hlt (hlown d hd)
        · exact heq
        · refine absurd ?_ he
          have := h k
          rw [Memory.read_cons (k := k), if_pos rfl] at this
          rw [← this]
          refine Memory.read_below fun d hd => ?_
          rcases List.mem_cons.1 hd with rfl | hd
          · exact hgt
          · exact Nat.lt_trans hgt (hlowm d hd)
      subst hjk
      have hbe : b = e := by simpa [Memory.read_cons] using h j
      subst hbe
      have : m = n := by
        refine ih hwm hwn fun a => ?_
        by_cases ha : a = j
        · subst ha; rw [Memory.read_below hlowm, Memory.read_below hlown]
        · simpa [Memory.read_cons, ha] using h a
      rw [this]

/-- The value of the two bytes of a word, the lower address the high byte (R52). -/
theorem Memory.readWord_toNat (m : Memory) (a : Nat) :
    (m.readWord a).toNat = (m.read a).toNat * 256 + (m.read (a + 1)).toNat := by
  have h := (m.read (a + 1)).isLt
  simp only [Memory.readWord, BitVec.toNat_append]
  rw [← Nat.shiftLeft_add_eq_or_of_lt h, Nat.shiftLeft_eq]

end Sys2Proof.Machine
end

