-- ==== Sys2Proof/Laws/Ops.lean ====
section
/-! SUPPORT. What each shared operation can do: the stack (R131, R132), stopping (R185), the register file and flag
values as numbers (R110). -/

namespace Sys2Proof.Machine

/-! ## The call stack -/

/-- A push on a stack that is not full (R131). -/
theorem State.push_of_lt {s : State} (h : s.sp.val < 16) (w : Word) :
    s.push w = some { s with stack := s.stack.set s.sp.val w h, sp := ⟨s.sp.val + 1, Nat.succ_lt_succ h⟩ } := dif_pos h

/-- A push on a full stack (R131). -/
theorem State.push_full {s : State} (h : s.sp.val = 16) (w : Word) : s.push w = none :=
  dif_neg (by rw [h]; exact Nat.lt_irrefl 16)

/-- A pop from an empty stack (R132). -/
theorem State.pop_empty {s : State} (h : s.sp.val = 0) : s.pop = none := by
  have hs : s.sp = ⟨0, Nat.succ_pos 16⟩ := Fin.ext h
  unfold State.pop
  rw [hs]

/-- A pop from a stack that is not empty (R132). -/
theorem State.pop_of_pos {s : State} {k : Nat} (h : s.sp.val = k + 1) (hk : k < 16) :
    s.pop = some (s.stack[k], { s with stack := s.stack.set k 0 hk, sp := ⟨k, Nat.lt_succ_of_lt hk⟩ }) := by
  have hs : s.sp = ⟨k + 1, Nat.succ_lt_succ hk⟩ := Fin.ext h
  unfold State.pop
  rw [hs]

/-- Everything a push can do: it answers only below the capacity, writes the slot `SP` names and moves `SP` up. -/
theorem State.push_cases {s t : State} {w : Word} (h : s.push w = some t) :
    ∃ hsp : s.sp.val < 16,
      t = { s with stack := s.stack.set s.sp.val w hsp, sp := ⟨s.sp.val + 1, Nat.succ_lt_succ hsp⟩ } := by
  by_cases hsp : s.sp.val < 16
  · rw [State.push_of_lt hsp] at h
    exact ⟨hsp, (Option.some.inj h).symm⟩
  · rw [State.push_full (by have := s.sp.isLt; omega)] at h
    cases h

/-- Everything a pop can do: it answers only above 0, gives the top slot's entry, zeroes the slot and moves `SP` down. -/
theorem State.pop_cases {s t : State} {w : Word} (h : s.pop = some (w, t)) :
    ∃ (k : Nat) (hk : k < 16), s.sp.val = k + 1 ∧ w = s.stack[k] ∧
      t = { s with stack := s.stack.set k 0 hk, sp := ⟨k, Nat.lt_succ_of_lt hk⟩ } := by
  obtain ⟨k, hk⟩ | h0 : (∃ k, s.sp.val = k + 1) ∨ s.sp.val = 0 := by
    cases hv : s.sp.val with
    | zero => exact .inr rfl
    | succ k => exact .inl ⟨k, rfl⟩
  · have hlt : k < 16 := by have := s.sp.isLt; omega
    rw [State.pop_of_pos hk hlt] at h
    cases h
    exact ⟨k, hlt, hk, rfl, rfl⟩
  · rw [State.pop_empty h0] at h
    cases h

/-! ## Skips (R138) -/

/-- A skip touches `PC` alone. -/
theorem State.skipIf_eq (s : State) (c : Bool) : s.skipIf c = { s with pc := if c then s.pc + 2 else s.pc } := by
  cases c <;> rfl

/-! ## Stopping (R185) -/

theorem halt_eq (r : HaltReason) (s : State) : halt r s = .next (s.stop (.halted r)) := rfl

theorem raise_eq (r : FaultReason) (a : Word) (w : Option Word) (s : State) :
    raise r a w s = .next (s.stop (.faulted r a w)) := rfl

theorem raiseHere_eq (r : FaultReason) (i : Instr) (s : State) :
    raiseHere r i s = .next (s.stop (.faulted r (s.pc - 2) (some (encode i)))) := rfl

/-! ## Flag values (R22, R110) -/

theorem carryFlag_eq (x y : Byte) : carryFlag x y = if x.toNat + y.toNat > 255 then 1 else 0 := by
  simp [carryFlag, flagOf]

theorem greaterFlag_eq (x y : Byte) : greaterFlag x y = if x.toNat > y.toNat then 1 else 0 := by
  simp [greaterFlag, flagOf]

theorem lowBitFlag_toNat (y : Byte) : (lowBitFlag y).toNat = y.toNat % 2 := by
  simp [lowBitFlag, Nat.and_one_is_mod]

theorem highBitFlag_toNat (y : Byte) : (highBitFlag y).toNat = y.toNat / 128 := by
  have h := y.isLt
  have h1 : (1 : Byte).toNat = 1 := rfl
  rw [highBitFlag, BitVec.toNat_and, BitVec.toNat_ushiftRight, Nat.shiftRight_eq_div_pow, h1, Nat.and_one_is_mod]
  omega

/-! ## The offset target (R133) -/

theorem immAddr_toNat (nnn : Addr12) : (immAddr nnn).toNat = nnn.toNat := by
  have h := nnn.isLt
  simp only [immAddr, zext16, BitVec.toNat_setWidth]
  omega

theorem offsetTarget_toNat (nnn : Addr12) (s : State) : (offsetTarget nnn s).toNat = nnn.toNat + (s.getV 0).toNat := by
  have h := nnn.isLt
  have h' := (s.getV 0).isLt
  simp only [offsetTarget, zext16, BitVec.toNat_add, BitVec.toNat_setWidth]
  omega

end Sys2Proof.Machine
end

