-- ==== Sys2Proof/Laws/PerInstr.lean ====
section
/-! SUPPORT. Per-instruction family `EncodesItsRow`: the word of an instruction fits the row of the opcode table it
stands for (R75, R79). -/

namespace Sys2Proof.Laws.EncodesItsRow

/-- The encoded word fits its row: `w & mask = match`. -/
def Statement (i : Instr) : Prop := (rowOf i).fits (encode i) = true

theorem fits_of_eq {r : OpcodeRow} {w : Word} (h : w &&& r.mask = r.matchBits) : r.fits w = true := by
  unfold OpcodeRow.fits
  rw [h]
  exact beq_self_eq_true _

/-- A class-8 word with register operands fits the row of its sub-selector. -/
theorem class8 (x y : Reg) (sel : Nibble) :
    (0x8#4 ++ (regBits x ++ (regBits y ++ sel))) &&& (0xF00F : Word) = 0x8#4 ++ ((0 : Byte) ++ sel) := by
  have hm : (0xF00F : Word) = (0xF : Nibble) ++ ((0 : Nibble) ++ ((0 : Nibble) ++ BitVec.allOnes 4)) := rfl
  have hz : (0 : Byte) ++ sel = (0 : Nibble) ++ ((0 : Nibble) ++ sel) := by
    revert sel; decide
  rw [hm, BitVec.and_append, BitVec.and_append, BitVec.and_append, allOnes_nibble, BitVec.and_allOnes, BitVec.and_allOnes, hz]
  congr 2
  · exact BitVec.and_zero
  · congr 1
    exact BitVec.and_zero

theorem ret (ignored : Nibble) : Statement (.ret ignored) := fits_of_eq (and_F0FF _ _ _)
theorem halt (ignored : Nibble) (nn : Byte) : Statement (.halt ignored nn) := fits_of_eq (and_F000 _ _)
theorem jp (nnn : Addr12) : Statement (.jp nnn) := fits_of_eq (and_F000 _ _)
theorem call (nnn : Addr12) : Statement (.call nnn) := fits_of_eq (and_F000 _ _)
theorem seImm (x : Reg) (nn : Byte) : Statement (.seImm x nn) := fits_of_eq (and_F000 _ _)
theorem sneImm (x : Reg) (nn : Byte) : Statement (.sneImm x nn) := fits_of_eq (and_F000 _ _)
theorem seReg (x y : Reg) (ignored : Nibble) : Statement (.seReg x y ignored) := fits_of_eq (and_F000 _ _)
theorem ldImm (x : Reg) (nn : Byte) : Statement (.ldImm x nn) := fits_of_eq (and_F000 _ _)
theorem addImm (x : Reg) (nn : Byte) : Statement (.addImm x nn) := fits_of_eq (and_F000 _ _)
theorem ldReg (x y : Reg) : Statement (.ldReg x y) := fits_of_eq (class8 x y 0x0)
theorem orReg (x y : Reg) : Statement (.orReg x y) := fits_of_eq (class8 x y 0x1)
theorem andReg (x y : Reg) : Statement (.andReg x y) := fits_of_eq (class8 x y 0x2)
theorem xorReg (x y : Reg) : Statement (.xorReg x y) := fits_of_eq (class8 x y 0x3)
theorem addReg (x y : Reg) : Statement (.addReg x y) := fits_of_eq (class8 x y 0x4)
theorem subReg (x y : Reg) : Statement (.subReg x y) := fits_of_eq (class8 x y 0x5)
theorem shrReg (x y : Reg) : Statement (.shrReg x y) := fits_of_eq (class8 x y 0x6)
theorem subnReg (x y : Reg) : Statement (.subnReg x y) := fits_of_eq (class8 x y 0x7)
theorem shlReg (x y : Reg) : Statement (.shlReg x y) := fits_of_eq (class8 x y 0xE)
theorem sneReg (x y : Reg) (ignored : Nibble) : Statement (.sneReg x y ignored) := fits_of_eq (and_F000 _ _)
theorem ldI (nnn : Addr12) : Statement (.ldI nnn) := fits_of_eq (and_F000 _ _)
theorem jpV0 (nnn : Addr12) : Statement (.jpV0 nnn) := fits_of_eq (and_F000 _ _)
theorem rnd (x : Reg) (nn : Byte) : Statement (.rnd x nn) := fits_of_eq (and_F000 _ _)
theorem drw (x y : Reg) (n : Nibble) : Statement (.drw x y n) := fits_of_eq (and_F000 _ _)

theorem illegal88toB (xy : Byte) (low : BitVec 2) : Statement (.illegal88toB xy low) := by
  have hsel : (0b10#2 ++ low) &&& (0xC : Nibble) = 0x8 := by revert low; decide
  refine fits_of_eq ((and_F00 0x8 xy (0b10#2 ++ low) 0xC).trans ?_)
  rw [hsel]
  rfl

theorem illegal8CtoD (xy : Byte) (low : BitVec 1) : Statement (.illegal8CtoD xy low) := by
  have hsel : (0b110#3 ++ low) &&& (0xE : Nibble) = 0xC := by revert low; decide
  refine fits_of_eq ((and_F00 0x8 xy (0b110#3 ++ low) 0xE).trans ?_)
  rw [hsel]
  rfl

theorem illegal8F (xy : Byte) : Statement (.illegal8F xy) := fits_of_eq (and_F00 0x8 xy 0xF 0xF)
theorem illegalEF (low : BitVec 13) : Statement (.illegalEF low) := fits_of_eq (and_E000 0b111#3 low)

end Sys2Proof.Laws.EncodesItsRow
end

