-- ==== Sys2Proof/Laws/Step.lean ====
section
/-! SUPPORT. What executing an instruction and taking a step can do: one description of every instruction's outcome, and
one inversion lemma for `step`, for later proofs to cite instead of unfolding the meanings. -/

namespace Sys2Proof.Machine

/-- Every step that answers a next state is one of three: the end-of-memory halt (R91), the fetch fault (R92), or one
handler run at the advanced `PC` on the word fetched (R93 to R95). -/
theorem step_cases {s t : State} (h : step s = .next t) :
    s.status = .running ∧
      ((Config.memSize ≤ s.pc.toNat ∧ t = s.stop (.halted .endOfMemory)) ∨
       (s.pc.toNat = 4095 ∧ t = s.stop (.faulted .fetchOutOfRange s.pc none)) ∨
       (s.pc.toNat < 4095 ∧ exec (decodeWord (fetchWord s)) s.advancePC = .next t)) := by
  unfold step loopStep at h
  cases hst : s.status with
  | halted r => rw [hst] at h; cases h
  | faulted r a w => rw [hst] at h; cases h
  | running =>
    rw [hst] at h
    refine ⟨rfl, ?_⟩
    dsimp only [runningStep, Config.memSize] at h ⊢
    by_cases h1 : s.pc.toNat ≥ 4096
    · rw [if_pos h1, halt_eq] at h
      cases h
      exact .inl ⟨h1, rfl⟩
    · rw [if_neg h1] at h
      by_cases h2 : s.pc.toNat = 4096 - 1
      · rw [if_pos h2, raise_eq] at h
        cases h
        exact .inr (.inl ⟨h2, rfl⟩)
      · rw [if_neg h2] at h
        exact .inr (.inr ⟨by omega, h⟩)

/-- A step of a running machine that fetches a word (R90, R94). -/
theorem step_of_fetch {s : State} (hr : s.status = .running) (hpc : s.pc.toNat < 4095) :
    step s = exec (decodeWord (fetchWord s)) s.advancePC := by
  unfold step loopStep
  rw [hr]
  dsimp only [runningStep, Config.memSize]
  rw [if_neg (by omega), if_neg (by omega)]
  rfl

/-- A step past memory (R91). -/
theorem step_of_endOfMemory {s : State} (hr : s.status = .running) (hpc : 4096 ≤ s.pc.toNat) :
    step s = .next (s.stop (.halted .endOfMemory)) := by
  unfold step loopStep
  rw [hr]
  dsimp only [runningStep, Config.memSize]
  rw [if_pos hpc]
  rfl

/-- A step at the last byte of memory (R92). -/
theorem step_of_fetchOutOfRange {s : State} (hr : s.status = .running) (hpc : s.pc.toNat = 4095) :
    step s = .next (s.stop (.faulted .fetchOutOfRange s.pc none)) := by
  unfold step loopStep
  rw [hr]
  dsimp only [runningStep, Config.memSize]
  rw [if_neg (by omega), if_pos (by omega)]
  rfl

/-- The advanced `PC` where a word was fetched: it does not wrap (R25, R94). -/
theorem advancePC_toNat {s : State} (hpc : s.pc.toNat < 4095) : s.advancePC.pc.toNat = s.pc.toNat + 2 := by
  have h2 : (2 : Word).toNat = 2 := rfl
  rw [State.advancePC_pc, BitVec.toNat_add, h2]
  omega

/-- The address a handler records is the one its word was fetched from (R9, R94). -/
theorem fetchedFrom_advancePC (s : State) : s.advancePC.fetchedFrom = s.pc := by
  rw [State.fetchedFrom, State.advancePC_pc, BitVec.add_sub_cancel]

/-! ## The outcome of each instruction that can stop -/

theorem execCall_of_lt {s : State} (h : s.sp.val < 16) (nnn : Addr12) :
    exec (.call nnn) s = .next
      { s with stack := s.stack.set s.sp.val s.pc h, sp := ⟨s.sp.val + 1, Nat.succ_lt_succ h⟩, pc := immAddr nnn } := by
  simp only [exec, execCall, State.push_of_lt h]
  rfl

theorem execCall_full {s : State} (h : s.sp.val = 16) (nnn : Addr12) :
    exec (.call nnn) s = raiseHere .stackOverflow (.call nnn) s := by
  simp only [exec, execCall, State.push_full h]

theorem execRet_of_pos {s : State} {k : Nat} (h : s.sp.val = k + 1) (hk : k < 16) (b : Nibble) :
    exec (.ret b) s = .next
      { s with pc := s.stack[k], stack := s.stack.set k 0 hk, sp := ⟨k, Nat.lt_succ_of_lt hk⟩ } := by
  simp only [exec, execRet, State.pop_of_pos h hk]
  rfl

theorem execRet_empty {s : State} (h : s.sp.val = 0) (b : Nibble) :
    exec (.ret b) s = raiseHere .stackUnderflow (.ret b) s := by
  simp only [exec, execRet, State.pop_empty h]

theorem execDrw_readsOutOfRange {s : State} {x y : Reg} {n : Nibble}
    (h : (drawOperands x y n s).readsOutOfRange = true) :
    exec (.drw x y n) s = raiseHere .spriteReadOutOfRange (.drw x y n) s := by
  simp only [exec, execDrw, execDrwWith, h, if_true]

theorem execDrw_drawsOutOfRange {s : State} {x y : Reg} {n : Nibble}
    (h : (drawOperands x y n s).readsOutOfRange = false) (h' : (drawOperands x y n s).drawsOutOfRange = true) :
    exec (.drw x y n) s = raiseHere .displayOutOfRange (.drw x y n) s := by
  simp only [exec, execDrw, execDrwWith, h, h', if_true, Bool.false_eq_true, if_false]

theorem execDrw_inRange {s : State} {x y : Reg} {n : Nibble}
    (h : (drawOperands x y n s).readsOutOfRange = false) (h' : (drawOperands x y n s).drawsOutOfRange = false) :
    exec (.drw x y n) s = .next (drawOnto Config.drwClearsVf (drawOperands x y n s) s) := by
  simp only [exec, execDrw, execDrwWith, h, h', Bool.false_eq_true, if_false]

/-- The three ends of `DRW` (R162, R183). -/
theorem execDrw_cases (s : State) (x y : Reg) (n : Nibble) :
    exec (.drw x y n) s = raiseHere .spriteReadOutOfRange (.drw x y n) s ∨
    exec (.drw x y n) s = raiseHere .displayOutOfRange (.drw x y n) s ∨
    ((drawOperands x y n s).readsOutOfRange = false ∧ (drawOperands x y n s).drawsOutOfRange = false ∧
      exec (.drw x y n) s = .next (drawOnto Config.drwClearsVf (drawOperands x y n s) s)) := by
  cases h : (drawOperands x y n s).readsOutOfRange with
  | true => exact .inl (execDrw_readsOutOfRange h)
  | false =>
    cases h' : (drawOperands x y n s).drawsOutOfRange with
    | true => exact .inr (.inl (execDrw_drawsOutOfRange h h'))
    | false => exact .inr (.inr ⟨rfl, rfl, execDrw_inRange h h'⟩)

/-- Every instruction answers a next state: no meaning ends in a fault or a refusal of the model. -/
theorem exec_next (i : Instr) (s : State) : ∃ t, exec i s = .next t := by
  cases i with
  | call nnn =>
    by_cases hs : s.sp.val < 16
    · exact ⟨_, execCall_of_lt hs nnn⟩
    · exact ⟨_, execCall_full (by have := s.sp.isLt; omega) nnn⟩
  | ret b =>
    cases hv : s.sp.val with
    | zero => exact ⟨_, execRet_empty hv b⟩
    | succ k => exact ⟨_, execRet_of_pos hv (by have := s.sp.isLt; omega) b⟩
  | drw x y n =>
    rcases execDrw_cases s x y n with h | h | ⟨_, _, h⟩
    · exact ⟨_, h⟩
    · exact ⟨_, h⟩
    · exact ⟨_, h⟩
  | _ => exact ⟨_, rfl⟩

/-- The bounds test of `DRW` on memory, as its condition (R162). -/
theorem readsOutOfRange_iff (o : DrawOperands) : o.readsOutOfRange = true ↔ 0 < o.n ∧ 4096 < o.base + o.n := by
  simp [DrawOperands.readsOutOfRange]

/-- The bounds test of `DRW` on the grid, as its condition (R162). -/
theorem drawsOutOfRange_iff (o : DrawOperands) :
    o.drawsOutOfRange = true ↔ 0 < o.n ∧ (64 < o.x0 + 8 * o.n ∨ 32 < o.y0 + o.n) := by
  simp [DrawOperands.drawsOutOfRange]

/-! ## What a draw leaves -/

@[simp] theorem drawOnto_display (c : Bool) (o : DrawOperands) (s : State) :
    (drawOnto c o s).display = (composite o s).grid := rfl
@[simp] theorem drawOnto_mem (c : Bool) (o : DrawOperands) (s : State) : (drawOnto c o s).mem = s.mem := rfl
@[simp] theorem drawOnto_i (c : Bool) (o : DrawOperands) (s : State) : (drawOnto c o s).i = s.i := rfl
@[simp] theorem drawOnto_pc (c : Bool) (o : DrawOperands) (s : State) : (drawOnto c o s).pc = s.pc := rfl
@[simp] theorem drawOnto_stack (c : Bool) (o : DrawOperands) (s : State) : (drawOnto c o s).stack = s.stack := rfl
@[simp] theorem drawOnto_sp (c : Bool) (o : DrawOperands) (s : State) : (drawOnto c o s).sp = s.sp := rfl
@[simp] theorem drawOnto_seed (c : Bool) (o : DrawOperands) (s : State) : (drawOnto c o s).seed = s.seed := rfl
@[simp] theorem drawOnto_status (c : Bool) (o : DrawOperands) (s : State) : (drawOnto c o s).status = s.status := rfl

/-- `VF` after a draw (R163). -/
theorem drawOnto_getV_flag (c : Bool) (o : DrawOperands) (s : State) :
    (drawOnto c o s).getV 15 = drawFlag (composite o s).anyFalse c (s.getV 15) := State.getV_setV_same _ _ _

/-- Every other register after a draw (R161). -/
theorem drawOnto_getV_other (c : Bool) (o : DrawOperands) (s : State) {r : Reg} (h : r ≠ 15) :
    (drawOnto c o s).getV r = s.getV r := State.getV_setV_other _ _ _ _ h

end Sys2Proof.Machine
end

