-- ==== Sys2Proof/Tests/Slice0.lean ====
section
/-! SUPPORT. The model's own tests. Expected results are the spec's: the vectors of `95_test_vectors.md` (named S<n>, B<n>,
P<n> there) and the encodings of R75 and R79. After them, one witness for each statement that has hypotheses. -/

namespace Sys2Proof.Tests

open Sys2Proof Sys2Proof.Machine

/-! ## Helpers -/

/-- The next state of an outcome, if it is one. -/
def nextOf : Result → Option State
  | .next t => some t
  | .fault _ => none
  | .refused _ => none

/-- Something read off the next state of an outcome. -/
def see {α : Type} (f : State → α) (r : Result) : Option α := (nextOf r).map f

/-- A seed like any other, for tests. -/
def testSeed : Seed := ⟨1, 2, 3, 4⟩

/-- A machine just reset, with `PC` past a word fetched at 0x200: how an instruction rule is entered. -/
def at200 : State := { State.resetWith testSeed with pc := 0x202 }

/-- The same with two registers set. -/
def regs (x : Reg) (b : Byte) (y : Reg) (c : Byte) : State := (at200.setV x b).setV y c

/-- The word `word` executed at a state: decoded, and its meaning run. -/
def runWord (word : Word) (s : State) : Result := exec (decodeWord word) s

/-- A machine just reset with bytes at an address and `PC` there. -/
def fetchFrom (pc : Word) (bytes : List Byte) : State :=
  { State.resetWith testSeed with pc := pc, mem := Memory.writeBytes [] pc.toNat bytes }

/-- `V[x]` and `VF`. -/
def vAndFlag (x : Reg) (t : State) : Byte × Byte := (t.getV x, t.getV 15)

/-- `PC`, `SP` and `STATUS`. -/
def control (t : State) : Word × Fin 17 × Status := (t.pc, t.sp, t.status)

/-! ## Well-formedness: the one check, and a term it refuses -/

theorem test_wellFormed_refuses_halt_EE : Instr.wellFormed (.halt 0 0xEE) = false := by decide
theorem test_wellFormed_accepts_halt_E0 : Instr.wellFormed (.halt 0 0xE0) = true := by decide

/-! ## Decoding: one word of every row, written out bit by bit from R72, R75, R79 -/

theorem test_decode_RET : decodeWord 0b0000000011101110 = .ret 0 := by decide
theorem test_decode_RET_ignored_bits : decodeWord 0b0000011111101110 = .ret 7 := by decide
theorem test_decode_HALT : decodeWord 0b0000000100100011 = .halt 1 0x23 := by decide
theorem test_decode_JP_NNN : decodeWord 0b0001001000000100 = .jp 0x204 := by decide
theorem test_decode_CALL_NNN : decodeWord 0b0010001000001000 = .call 0x208 := by decide
theorem test_decode_SE_Vx_NN : decodeWord 0b0011000100000101 = .seImm 1 0x05 := by decide
theorem test_decode_SNE_Vx_NN : decodeWord 0b0100000100000101 = .sneImm 1 0x05 := by decide
theorem test_decode_SE_Vx_Vy : decodeWord 0b0101000100100111 = .seReg 1 2 7 := by decide
theorem test_decode_LD_Vx_NN : decodeWord 0b0110000100101010 = .ldImm 1 0x2A := by decide
theorem test_decode_ADD_Vx_NN : decodeWord 0b0111000111111111 = .addImm 1 0xFF := by decide
theorem test_decode_LD_Vx_Vy : decodeWord 0b1000000100100000 = .ldReg 1 2 := by decide
theorem test_decode_OR_Vx_Vy : decodeWord 0b1000000100100001 = .orReg 1 2 := by decide
theorem test_decode_AND_Vx_Vy : decodeWord 0b1000000100100010 = .andReg 1 2 := by decide
theorem test_decode_XOR_Vx_Vy : decodeWord 0b1000000100100011 = .xorReg 1 2 := by decide
theorem test_decode_ADD_Vx_Vy : decodeWord 0b1000000100100100 = .addReg 1 2 := by decide
theorem test_decode_SUB_Vx_Vy : decodeWord 0b1000000100100101 = .subReg 1 2 := by decide
theorem test_decode_SHR_Vx_Vy : decodeWord 0b1000000100100110 = .shrReg 1 2 := by decide
theorem test_decode_SUBN_Vx_Vy : decodeWord 0b1000000100100111 = .subnReg 1 2 := by decide
theorem test_decode_SHL_Vx_Vy : decodeWord 0b1000101010101110 = .shlReg 10 10 := by decide
theorem test_decode_SNE_Vx_Vy : decodeWord 0b1001001101000000 = .sneReg 3 4 0 := by decide
theorem test_decode_LD_I_NNN : decodeWord 0b1010001000001010 = .ldI 0x20A := by decide
theorem test_decode_JP_V0_NNN : decodeWord 0b1011001100000000 = .jpV0 0x300 := by decide
theorem test_decode_RND_Vx_NN : decodeWord 0b1100001100001111 = .rnd 3 0x0F := by decide
theorem test_decode_DRW_Vx_Vy_N : decodeWord 0b1101010110100011 = .drw 5 10 3 := by decide
theorem test_decode_ILLEGAL_8_8toB : decodeWord 0b1000000100101011 = .illegal88toB 0x12 3 := by decide
theorem test_decode_ILLEGAL_8_CtoD : decodeWord 0b1000000100101101 = .illegal8CtoD 0x12 1 := by decide
theorem test_decode_ILLEGAL_8_F : decodeWord 0b1000000100101111 = .illegal8F 0x12 := by decide
theorem test_decode_ILLEGAL_E : decodeWord 0b1110000110011110 = .illegalEF 0x019E := by decide
theorem test_decode_ILLEGAL_F : decodeWord 0b1111000100000111 = .illegalEF 0x1107 := by decide

/-- The fields of 0x612A (B4). -/
theorem test_fields_612A : (opClass 0x612A, fieldX 0x612A, fieldY 0x612A, fieldN 0x612A, fieldNN 0x612A, fieldNNN 0x612A)
    = (6, 1, 2, 0xA, 0x2A, 0x12A) := by decide

/-- Bytes are taken high byte first, and the rest of the list is given back (R53). -/
theorem test_decodeBytes_order : (decodeBytes [0x61, 0x2A, 0xFF]).toOption = some (.ldImm 1 0x2A, [0xFF]) := by decide
theorem test_decodeBytes_one_byte : (decodeBytes [0x61]).toOption = none := by decide
theorem test_encode_DRW : encode (.drw 5 10 3) = 0xD5A3 := by decide
theorem test_encodeBytes_LD : encodeBytes (.ldImm 1 0x2A) = [0x61, 0x2A] := by decide
theorem test_decodeTableWord : decodeTableWord 16 0xD5A3 = some (.drw 5 10 3) := by decide
theorem test_opcodeTable_length : opcodeTable.length = 27 := by decide

/-! ## One step of each instruction (95_test_vectors.md) -/

/-- S1. -/
theorem test_LD_imm : see (vAndFlag 10) (runWord 0x6A2C at200) = some (0x2C, 0) := by decide
/-- B1. -/
theorem test_LD_imm_VF : see (vAndFlag 15) (runWord 0x6FFF at200) = some (0xFF, 0xFF) := by decide
/-- B1: no carry reported. -/
theorem test_ADD_imm_wraps : see (vAndFlag 1) (runWord 0x7101 (regs 1 0xFF 15 1)) = some (0, 1) := by decide
/-- B1. -/
theorem test_ADD_imm_VF : see (vAndFlag 15) (runWord 0x7F01 (regs 1 0 15 0xFF)) = some (0, 0) := by decide
/-- B2. -/
theorem test_LD_reg : see (vAndFlag 1) (runWord 0x8120 (regs 1 1 2 0x37)) = some (0x37, 0) := by decide
/-- B2, R115. -/
theorem test_OR : see (vAndFlag 1) (runWord 0x8121 (regs 1 0xCA 2 0x33)) = some (0xFB, 0) := by decide
/-- B2, R116. -/
theorem test_AND : see (vAndFlag 1) (runWord 0x8122 (regs 1 0xCA 2 0x33)) = some (0x02, 0) := by decide
/-- B2, R117. -/
theorem test_XOR : see (vAndFlag 1) (runWord 0x8123 (regs 1 0xCA 2 0x33)) = some (0xF9, 0) := by decide
/-- S2. -/
theorem test_ADD_reg_carry : see (vAndFlag 1) (runWord 0x8124 (regs 1 255 2 1)) = some (0, 1) := by decide
/-- B2: the old flag is the addend. -/
theorem test_ADD_reg_VF_operand : see (vAndFlag 1) (runWord 0x81F4 (regs 1 0x10 15 1)) = some (0x11, 0) := by decide
/-- S5. -/
theorem test_SUB_wraps : see (vAndFlag 1) (runWord 0x8125 (regs 1 0 2 1)) = some (255, 0) := by decide
/-- B2: equal operands. -/
theorem test_SUB_strict : see (vAndFlag 1) (runWord 0x8125 (regs 1 7 2 7)) = some (0, 0) := by decide
/-- S8. -/
theorem test_SHR_from_Y : see (vAndFlag 1) (runWord 0x8126 (regs 1 0x99 2 0xB7)) = some (0x5B, 1) := by decide
/-- B2: the flag remains. -/
theorem test_SHR_VF_both : see (vAndFlag 15) (runWord 0x8FF6 (regs 1 0 15 3)) = some (1, 1) := by decide
/-- S6. -/
theorem test_SUBN : see (vAndFlag 1) (runWord 0x8127 (regs 1 100 2 105)) = some (5, 1) := by decide
/-- S7. -/
theorem test_SUBN_wraps : see (vAndFlag 1) (runWord 0x8127 (regs 1 1 2 0)) = some (255, 0) := by decide
/-- S8b. -/
theorem test_SHL_from_Y : see (vAndFlag 1) (runWord 0x812E (regs 1 0x9D 2 0xDC)) = some (0xB8, 1) := by decide
/-- B2. -/
theorem test_SHL_in_place : see (vAndFlag 10) (runWord 0x8AAE (regs 1 0 10 3)) = some (6, 0) := by decide
/-- B5. -/
theorem test_LD_I : see (fun t => (t.i, t.pc)) (runWord 0xAFFF at200) = some (0x0FFF, 0x202) := by decide
/-- B3. -/
theorem test_JP_odd : see control (runWord 0x1203 at200) = some (0x203, 0, .running) := by decide
/-- B3: not masked. -/
theorem test_JP_V0 : see control (runWord 0xBFFF (regs 0 0xFF 1 0)) = some (0x10FE, 0, .running) := by decide
/-- B3: the 3 is no register. -/
theorem test_JP_V0_register : see control (runWord 0xB300 (regs 3 9 0 0)) = some (0x300, 0, .running) := by decide
/-- B3. -/
theorem test_CALL : see (fun t => (control t, t.stack[15])) (runWord 0x2300 { at200 with pc := 0x252, sp := 15 }) = some ((0x300, 16, .running), 0x252) := by decide
/-- B3, S11. -/
theorem test_CALL_overflow : see control (runWord 0x2300 { at200 with pc := 0x252, sp := 16 }) = some (0x252, 16, .faulted .stackOverflow 0x250 (some 0x2300)) := by decide
/-- A machine with one open call that returns to 0x204. -/
def oneCall : State := { at200 with pc := 0x20A, sp := 1, stack := at200.stack.set 0 0x204 }

/-- B3: the slot is zeroed, the ignored bits select nothing. -/
theorem test_RET : see (fun t => (control t, t.stack[0])) (runWord 0x07EE oneCall) = some ((0x204, 0, .running), 0) := by decide
/-- B3, S12. -/
theorem test_RET_underflow : see control (runWord 0x00EE at200) = some (0x202, 0, .faulted .stackUnderflow 0x200 (some 0x00EE)) := by decide
/-- B3. -/
theorem test_SE_imm : see control (runWord 0x3105 (regs 1 5 2 0)) = some (0x204, 0, .running) := by decide
/-- B3. -/
theorem test_SE_imm_not : see control (runWord 0x3105 (regs 1 6 2 0)) = some (0x202, 0, .running) := by decide
/-- B3. -/
theorem test_SNE_imm : see control (runWord 0x4105 (regs 1 6 2 0)) = some (0x204, 0, .running) := by decide
/-- B3. -/
theorem test_SNE_imm_not : see control (runWord 0x4105 (regs 1 5 2 0)) = some (0x202, 0, .running) := by decide
/-- B3: the low nibble is ignored. -/
theorem test_SE_reg : see control (runWord 0x5127 (regs 1 9 2 9)) = some (0x204, 0, .running) := by decide
/-- B3. -/
theorem test_SE_reg_not : see control (runWord 0x5120 (regs 1 9 2 8)) = some (0x202, 0, .running) := by decide
/-- B3. -/
theorem test_SNE_reg : see control (runWord 0x9120 (regs 1 9 2 8)) = some (0x204, 0, .running) := by decide
/-- B3. -/
theorem test_SNE_reg_same : see control (runWord 0x9110 (regs 1 9 2 8)) = some (0x202, 0, .running) := by decide
/-- B4. -/
theorem test_HALT : see control (runWord 0x00E0 at200) = some (0x202, 0, .halted .unknownMiscOpcode) := by decide
/-- B4. -/
theorem test_ILLEGAL_8 : see control (runWord 0x812C at200) = some (0x202, 0, .faulted .unimplementedOpcode 0x200 (some 0x812C)) := by decide
/-- P9. -/
theorem test_ILLEGAL_F : see control (runWord 0xF107 at200) = some (0x202, 0, .faulted .unimplementedOpcode 0x200 (some 0xF107)) := by decide
/-- B5: `RND V3, 0x0F`, whatever the two functions are. -/
theorem test_RND : exec (decodeWord 0xC30F) at200 =
    .next ((at200.setV 3 (Config.prngByte testSeed &&& 0x0F)).setSeed (Config.prngReseed testSeed)) := rfl

/-- The machine of P3 before its draw, registers chosen by the caller. -/
def sprite (x0 y0 : Byte) : State := { regs 0 x0 1 y0 with i := 0x20A, mem := [(0x20A, 0xF0), (0x20B, 0x81)] }

/-- The lit cells of a grid among those of its first rows and columns. -/
def lit (cols rows : Nat) (d : Display) : List (Nat × Nat) :=
  (List.range rows).flatMap fun y => ((List.range cols).filter fun x => d.read x y).map fun x => (x, y)

/-- The same display and flag for both values of the open parameter DRW_CLEARS_VF. -/
def drawn (clears : Bool) (n : Nibble) (s : State) : Option (List (Nat × Nat) × Byte) :=
  see (fun t => (lit 20 4 t.display, t.getV 15)) (execDrwWith clears 0 1 n s)

/-- P3. -/
theorem test_DRW_drifts : drawn false 2 (sprite 2 1) = some ([(2, 1), (3, 1), (4, 1), (5, 1), (10, 2), (17, 2)], 1) := by decide
/-- B6: the flag for both values of DRW_CLEARS_VF. -/
theorem test_DRW_all_true : (see (·.getV 15) (execDrwWith false 0 1 1 { regs 0 0 15 7 with i := 8, mem := [(8, 0xFF)] }), see (·.getV 15) (execDrwWith true 0 1 1 { regs 0 0 15 7 with i := 8, mem := [(8, 0xFF)] })) = (some 7, some 0) := by decide
/-- B4. -/
theorem test_step_EndOfMemory : see control (step (fetchFrom 0x1000 [])) = some (0x1000, 0, .halted .endOfMemory) := by decide
/-- B4. -/
theorem test_step_FetchOutOfRange : see control (step (fetchFrom 0xFFF [0x60])) = some (0xFFF, 0, .faulted .fetchOutOfRange 4095 none) := by decide
/-- B4. -/
theorem test_step_last_word : see (fun t => (t.getV 0, t.pc)) (step (fetchFrom 0xFFE [0x60, 0x07])) = some (7, 0x1000) := by decide
/-- P7. -/
theorem test_step_odd_address : see (fun t => (t.getV 1, t.pc)) (step (fetchFrom 0x203 [0x61, 0x07])) = some (7, 0x205) := by decide
/-- R53, R92. -/
theorem test_withFetchWord : see (fun t => (t.getV 1, t.pc)) (step (State.reset.withFetchWord 16 0x612A)) = some (0x2A, 0x202) := by decide
/-- S16. -/
theorem test_empty_program : see control (step State.reset) = some (0x202, 0, .halted .unknownMiscOpcode) := by decide
/-- R36: writing what an unlisted address reads as removes the cell. -/
theorem test_memory_canonical : (Memory.write (Memory.write (Memory.write [] 5 1) 3 2) 5 0) = [(3, 2)] := by decide

/-! ## Witnesses: states and operands that meet each statement's hypotheses, clause by clause -/

/-- Every meaning answers a next state, so a hypothesis `exec i s = .next t` is met at any `i` and `s`. -/
theorem witness_exec (i : Instr) (s : State) : ∃ t, exec i s = .next t := exec_next i s

theorem witness_DecoderFollowsTheClassTable : ∃ x y n : Fin 16,
    (y.val = 14 ∧ n.val = 14) ∧ wordOfDigits 0 x y n = 0x07EE := ⟨7, 14, 14, by decide⟩
theorem witness_DecoderFollowsTheClassTable_halt : ∃ x y n : Fin 16,
    ¬ (y.val = 14 ∧ n.val = 14) ∧ wordOfDigits 0 x y n = 0x00ED := ⟨0, 14, 13, by decide⟩
theorem witness_DecoderFollowsTheClassTable_illegal8 : ∃ x y n : Fin 16,
    8 ≤ n.val ∧ n.val ≠ 14 ∧ (0x8128 : Word) = wordOfDigits 8 x y n := ⟨1, 2, 8, by decide⟩
theorem witness_DecoderFollowsTheClassTable_illegalEF :
    (0xE19E : Word) = wordOfDigits 14 1 9 14 ∧ (0xF107 : Word) = wordOfDigits 15 1 0 7 := by decide

theorem witness_DecodeOfEncodeIsIdentity : Instr.wellFormed (.halt 0xF 0xEF) = true := by decide

/-- `LD V1, 0x2A` at 0xFFE, the last address a word fits. -/
def lastWord : State := fetchFrom 0xFFE [0x61, 0x2A]

theorem witness_StepRunsTheDecodedInstruction : lastWord.status = .running ∧ lastWord.pc.toNat + 1 < 4096 ∧
    decodeBytes [lastWord.mem.read lastWord.pc.toNat, lastWord.mem.read (lastWord.pc.toNat + 1)] =
      .ok (.ldImm 1 0x2A, []) := ⟨by decide, by decide, rfl⟩

theorem witness_StepFollowsItsStages_pastMemory :
    (fetchFrom 0x1000 []).status = .running ∧ 4096 ≤ (fetchFrom 0x1000 []).pc.toNat := by decide
theorem witness_StepFollowsItsStages_lastByte :
    (fetchFrom 0xFFF []).status = .running ∧ (fetchFrom 0xFFF []).pc.toNat = 4095 := by decide
/-- A `HALT` word and an illegal word at 0xFFE. -/
theorem witness_StepFollowsItsStages_fetch : ∃ w w' : Word,
    (fetchFrom 0xFFE [0x00, 0xEF]).pc.toNat < 4095 ∧
    w.toNat = ((fetchFrom 0xFFE [0x00, 0xEF]).mem.read 0xFFE).toNat * 256 +
      ((fetchFrom 0xFFE [0x00, 0xEF]).mem.read 0xFFF).toNat ∧ SentinelWord w ∧
    w'.toNat = ((fetchFrom 0xFFE [0xE0, 0x00]).mem.read 0xFFE).toNat * 256 +
      ((fetchFrom 0xFFE [0xE0, 0x00]).mem.read 0xFFF).toNat ∧ IllegalWord w' :=
  ⟨0x00EF, 0xE000, by decide, by decide, by unfold SentinelWord; decide, by decide, by unfold IllegalWord; decide⟩

/-- A machine that has halted, in a session. -/
def haltedSession : HostSession := { core := { at200 with status := .halted .unknownMiscOpcode }, phase := .stepped }

theorem witness_RunningMachineAlwaysHasOneStep : at200.status = .running ∧ haltedSession.core.status ≠ .running := by
  decide
theorem witness_StoppedMachineStaysStopped : haltedSession.core.status ≠ .running := by decide
theorem witness_RunIsRepeatedStep : ∃ t, step lastWord = .next t := ⟨_, step_of_fetch (by decide) (by decide)⟩
theorem witness_PlacedWordIsTheNextToRun :
    lastWord.status = .running ∧ lastWord.pc.toNat + 1 < 4096 ∧ lastWord.mem.wf := by decide

/-- The next state of a step, for a witness about steps; every state used has one. -/
def stepped (s : State) : State := (nextOf (step s)).getD s

/-- A stop after a fetch, and one without. -/
theorem witness_StopsArePrecise : ∃ t u, step (fetchFrom 0xFFE [0xF1, 0x07]) = .next t ∧ t.status ≠ .running ∧
    step (fetchFrom 0xFFF []) = .next u ∧ u.status ≠ .running :=
  ⟨_, _, step_of_fetch (by decide) (by decide), by decide, step_of_fetchOutOfRange (by decide) (by decide), by decide⟩

/-- `DRW V0, V1, 2` at 0x200. -/
def aboutToDraw (i : Word) (x0 y0 : Byte) : State := { (fetchFrom 0x200 [0xD0, 0x12]).setV 0 x0 with i := i }.setV 1 y0

/-- One state for each of the eight stops, each at the edge of its condition. -/
theorem witness_EachStopHasItsCondition :
    (stepped (fetchFrom 0x1000 [])).status = .halted .endOfMemory ∧
    (stepped (fetchFrom 0xFFE [0x00, 0xEF])).status = .halted .unknownMiscOpcode ∧
    (stepped (fetchFrom 0xFFF [])).status = .faulted .fetchOutOfRange 4095 none ∧
    (stepped (fetchFrom 0xFFE [0xE0, 0x00])).status = .faulted .unimplementedOpcode 0xFFE (some 0xE000) ∧
    (stepped { fetchFrom 0x200 [0x23, 0x00] with sp := 16 }).status = .faulted .stackOverflow 0x200 (some 0x2300) ∧
    (stepped (fetchFrom 0x200 [0x00, 0xEE])).status = .faulted .stackUnderflow 0x200 (some 0x00EE) ∧
    (stepped (aboutToDraw 0xFFF 49 31)).status = .faulted .spriteReadOutOfRange 0x200 (some 0xD012) ∧
    (stepped (aboutToDraw 0xFFE 49 30)).status = .faulted .displayOutOfRange 0x200 (some 0xD012) ∧
    (stepped (aboutToDraw 0xFFE 48 31)).status = .faulted .displayOutOfRange 0x200 (some 0xD012) := by decide

/-- On the other side of each edge the machine goes on. -/
theorem witness_EachStopHasItsCondition_goesOn :
    (stepped lastWord).status = .running ∧
    (stepped { fetchFrom 0x200 [0x23, 0x00] with sp := 15 }).status = .running ∧
    (stepped { fetchFrom 0x200 [0x00, 0xEE] with sp := 1 }).status = .running ∧
    (stepped (aboutToDraw 0xFFE 48 30)).status = .running := by decide

/-- The last word of memory leads to `PC = 0x1000`. -/
theorem witness_PcPastMemoryHaltsTheNextStep : ∃ t, step lastWord = .next t ∧ t.status = .running ∧ 4096 ≤ t.pc.toNat :=
  ⟨_, step_of_fetch (by decide) (by decide), by decide, by decide⟩

/-! Registers other than `VF`, for the flag setters: the neighbour of the excluded one. -/

theorem witness_AddRegistersSetsCarry : (14 : Reg) ≠ 15 := by decide
theorem witness_SubtractionsSetStrictGreater : (14 : Reg) ≠ 15 := by decide
theorem witness_ShiftsTakeTheirSourceFromY : (14 : Reg) ≠ 15 := by decide
theorem witness_FlagSettersInTheirCornerCases : (14 : Reg) ≠ 15 := by decide

/-- Offset jumps to 0x1000 and to 0xFFF. -/
theorem witness_OffsetJumpIsNotMasked :
    ((regs 0 1 1 0).status = .running ∧ 0x1000 ≤ (0xFFF : Addr12).toNat + ((regs 0 1 1 0).getV 0).toNat) ∧
    ((regs 0 1 1 0).status = .running ∧ (0xFFE : Addr12).toNat + ((regs 0 1 1 0).getV 0).toNat = 0xFFF) := by decide

theorem witness_CallPushesTheAdvancedCounter :
    ({ at200 with sp := 15 } : State).sp.val < 16 ∧ ({ at200 with sp := 16 } : State).sp.val = 16 := by decide
theorem witness_ReturnPopsAndZeroesTheSlot :
    ({ at200 with sp := 16 } : State).sp.val = 15 + 1 ∧ oneCall.sp.val = 0 + 1 ∧ at200.sp.val = 0 := by decide

/-- The sixteenth call, and the same stack with other registers at the return. -/
theorem witness_ReturnUndoesCall : ∃ (s t m : State), s.sp.val < 16 ∧ exec (.call 0x300) s = .next t ∧
    m.stack = t.stack ∧ m.sp = t.sp ∧ m.i ≠ t.i :=
  ⟨{ at200 with sp := 15 }, _, { stepped { at200 with sp := 15 } with
      stack := at200.stack.set 15 0x202, sp := 16, i := 9 },
    by decide, execCall_of_lt (by decide) 0x300, rfl, rfl, by decide⟩

theorem witness_SkipAddsExactlyTwoExtra :
    nextInstr (fetchFrom 0xFFE [0x31, 0x05]) = some (.seImm 1 5) ∧
    nextInstr (fetchFrom 0xFFE [0x41, 0x05]) = some (.sneImm 1 5) ∧
    nextInstr (fetchFrom 0xFFE [0x51, 0x27]) = some (.seReg 1 2 7) ∧
    nextInstr (fetchFrom 0xFFE [0x91, 0x20]) = some (.sneReg 1 2 0) := by decide

/-- P8: the second `RND`, after one step. -/
theorem witness_SeedCountsTheRndExecuted :
    nextInstr (run 1 (fetchFrom 0x200 [0xC3, 0x0F, 0xC4, 0xFF])) = some (.rnd 4 0xFF) := by decide
theorem witness_SeedIsSeenOnlyByRnd : ∃ t, nextIsRnd lastWord = false ∧ step lastWord = .next t :=
  ⟨_, by decide, step_of_fetch (by decide) (by decide)⟩

/-- Drawing operands in range, from the bounds tests. -/
theorem inRange_of_tests {o : DrawOperands} (h : o.readsOutOfRange = false) (h' : o.drawsOutOfRange = false) :
    o.InRange := by
  intro r k hr hk
  have h1 : ¬ o.readsOutOfRange = true := by rw [h]; exact Bool.false_ne_true
  have h2 : ¬ o.drawsOutOfRange = true := by rw [h']; exact Bool.false_ne_true
  rw [readsOutOfRange_iff] at h1
  rw [drawsOutOfRange_iff] at h2
  omega

/-- The largest sprite, at the edges of the grid and of memory: 8 rows, column 0, row 24, bytes 0xFF8 to 0xFFF. -/
def largest : State := { regs 0 0 1 24 with i := 0xFF8 }

theorem witness_DrawXorsEachRowAtItsDriftingCursor : (drawOperands 0 1 8 largest).InRange :=
  inRange_of_tests (by decide) (by decide)

/-- A row of zeros on a blank grid: the first resulting cell is false. -/
theorem witness_DrawFlagReportsAnyFalseCell_false : (drawOperands 0 1 1 at200).InRange ∧
    see (fun t => t.display.read ((at200.getV 0).toNat + 8 * 0 + 0) ((at200.getV 1).toNat + 0))
      (exec (.drw 0 1 1) at200) = some false := ⟨inRange_of_tests (by decide) (by decide), by decide⟩

/-- A row of ones on a blank grid: every resulting cell is true. -/
def ones : State := { at200 with i := 8, mem := [(8, 0xFF)] }

theorem witness_DrawFlagReportsAnyFalseCell_true : (drawOperands 0 1 1 ones).InRange ∧
    see (fun t => (List.range 8).all fun k => t.display.read ((ones.getV 0).toNat + 8 * 0 + k) ((ones.getV 1).toNat + 0))
      (exec (.drw 0 1 1) ones) = some true := ⟨inRange_of_tests (by decide) (by decide), by decide⟩

theorem witness_DrawFaultsBeforeAnyWrite_memory : ∃ r, r < (2 : Nibble).toNat ∧
    4096 ≤ (aboutToDraw 0xFFF 0 0).i.toNat + r := ⟨1, by decide⟩
theorem witness_DrawFaultsBeforeAnyWrite_grid :
    (¬ ∃ r, r < (2 : Nibble).toNat ∧ 4096 ≤ (aboutToDraw 0xFFE 49 0).i.toNat + r) ∧
    ∃ r k, r < (2 : Nibble).toNat ∧ k < 8 ∧ (64 ≤ ((aboutToDraw 0xFFE 49 0).getV 0).toNat + 8 * r + k ∨
      32 ≤ ((aboutToDraw 0xFFE 49 0).getV 1).toNat + r) := by
  refine ⟨?_, 1, 7, by decide⟩
  rintro ⟨r, hr, h⟩
  have h1 : (aboutToDraw 0xFFE 49 0).i.toNat = 4094 := by decide
  have h2 : (2 : Nibble).toNat = 2 := by decide
  omega
theorem witness_DrawFaultsBeforeAnyWrite_inRange : (drawOperands 0 1 2 (aboutToDraw 0xFFE 48 30)).InRange :=
  inRange_of_tests (by decide) (by decide)
theorem witness_DrawFaultsBeforeAnyWrite_rows : 9 ≤ (9 : Nibble).toNat ∧ (0 : Nibble).toNat = 0 := by decide

/-- The sprite of P4, drawn twice; `VF` changes in between, which is no coordinate of it. -/
theorem witness_DrawingTwiceRestoresTheDisplay : ∃ (s t m u : State), exec (.drw 0 1 2) s = .next t ∧
    m.display = t.display ∧ m.mem = s.mem ∧ m.i = s.i ∧ m.getV 0 = s.getV 0 ∧ m.getV 1 = s.getV 1 ∧
    exec (.drw 0 1 2) m = .next u :=
  ⟨sprite 2 1, drawOnto Config.drwClearsVf (drawOperands 0 1 2 (sprite 2 1)) (sprite 2 1),
    { sprite 2 1 with display := (composite (drawOperands 0 1 2 (sprite 2 1)) (sprite 2 1)).grid }, _,
    execDrw_inRange (by decide) (by decide), rfl, rfl, rfl, rfl, rfl, execDrw_inRange (by decide) (by decide)⟩

theorem witness_EachInstructionRaisesOnlyItsOwnStop : ∃ t, exec (.illegalEF 0) at200 = .next t ∧
    t.status ≠ at200.status := ⟨_, rfl, by decide⟩
theorem witness_NoStepWritesMemory : ∃ t, step lastWord = .next t := ⟨_, step_of_fetch (by decide) (by decide)⟩

/-- Each item changes somewhere: a register, `I`, `PC`, the stack, `SP`, the display, `STATUS`. -/
theorem witness_EachItemHasOnlyItsWriters :
    see (fun t => decide (t.getV 1 ≠ at200.getV 1)) (exec (.ldImm 1 7) at200) = some true ∧
    see (fun t => decide (t.i ≠ at200.i)) (exec (.ldI 5) at200) = some true ∧
    see (fun t => decide (t.pc ≠ at200.pc)) (exec (.jp 5) at200) = some true ∧
    see (fun t => decide (t.stack ≠ at200.stack ∧ t.sp ≠ at200.sp)) (exec (.call 5) at200) = some true ∧
    see (fun t => decide (t.display ≠ ones.display)) (exec (.drw 0 1 1) ones) = some true ∧
    see (fun t => decide (t.status ≠ at200.status)) (exec (.halt 0 0) at200) = some true := by decide

/-- An instruction that is none of `DRW`, `LD I`, `CALL`, `RET`, `RND`, and its next state. -/
theorem witness_EachItemHasOnlyItsReaders : ∃ t, exec (.ldImm 1 7) at200 = .next t ∧
    (∀ x y n, Instr.ldImm 1 7 ≠ .drw x y n) ∧ (∀ nnn, Instr.ldImm 1 7 ≠ .ldI nnn) ∧
    (∀ nnn, Instr.ldImm 1 7 ≠ .call nnn) ∧ (∀ b, Instr.ldImm 1 7 ≠ .ret b) ∧ ∀ x nn, Instr.ldImm 1 7 ≠ .rnd x nn :=
  ⟨_, rfl, by intros; exact Instr.noConfusion, by intros; exact Instr.noConfusion, by intros; exact Instr.noConfusion,
    by intros; exact Instr.noConfusion, by intros; exact Instr.noConfusion⟩

/-- Registers an instruction does not read: its destination, `VF` of a flag setter and of a draw, one it does not name. -/
theorem witness_EachItemHasOnlyItsReaders_registers : readsReg (.ldImm 1 7) 1 = false ∧
    readsReg (.addReg 1 2) 15 = false ∧ readsReg (.shrReg 1 2) 1 = false ∧ readsReg (.drw 0 1 1) 15 = false ∧
    readsReg (.jpV0 0x300) 3 = false := by decide

/-- A form that overwrites `PC`, and one whose fault record follows it. -/
theorem witness_EachItemHasOnlyItsReaders_counter : (∃ t, exec (.jp 0x300) at200 = .next t) ∧
    (∃ t, exec (.illegalEF 0) at200 = .next t ∧ t.status = .faulted .unimplementedOpcode (at200.pc - 2) (some 0xE000)) ∧
    (∀ nnn, Instr.illegalEF 0 ≠ .call nnn) ∧
    (∀ x nn, Instr.illegalEF 0 ≠ .seImm x nn ∧ Instr.illegalEF 0 ≠ .sneImm x nn) ∧
    ∀ x y b, Instr.illegalEF 0 ≠ .seReg x y b ∧ Instr.illegalEF 0 ≠ .sneReg x y b :=
  ⟨⟨_, rfl⟩, ⟨_, rfl, rfl⟩, by intros; exact Instr.noConfusion, by intros; exact ⟨Instr.noConfusion, Instr.noConfusion⟩,
    by intros; exact ⟨Instr.noConfusion, Instr.noConfusion⟩⟩

theorem witness_NoInstructionReadsStatus : ∃ t, exec (.halt 0 0) at200 = .next t ∧ t.status ≠ at200.status :=
  ⟨_, rfl, by decide⟩

/-- A session just reset. -/
def freshSession : HostSession := haltedSession.reset testSeed

theorem witness_LoadCopiesTheBufferOnce : freshSession.core.mem.wf ∧ ∃ h' h'', freshSession.load [0x60, 0xFF] = some h' ∧
    freshSession.step = some h'' := ⟨by decide, _, _, rfl, rfl⟩
/-- The longest program is accepted, and one byte more is not. -/
theorem witness_LoadCopiesTheBufferOnce_length : (∃ h', freshSession.load (List.replicate 3584 0xFF) = some h') ∧
    freshSession.load (List.replicate 3585 0xFF) = none :=
  ⟨⟨_, if_pos ⟨rfl, rfl, Nat.le_of_eq List.length_replicate⟩⟩,
    if_neg fun h => Nat.not_succ_le_self 3584 (Nat.le_trans (Nat.le_of_eq List.length_replicate.symm) h.2.2)⟩
/-- Refused also after a Load, and after a write through the port (log 11). -/
theorem witness_LoadCopiesTheBufferOnce_refused :
    ({ freshSession with phase := .loaded } : HostSession).load [0x60] = none ∧
    (freshSession.portWrite 0x200 0x60).load [0x60] = none := ⟨rfl, rfl⟩

theorem witness_resetWith_reads (sd : Seed) (r : Reg) : (State.resetWith sd).getV r = 0 := by
  simp [State.getV, State.resetWith]

/-- The state after Reset is a launch state for the empty program, in canonical form. -/
theorem witness_LaunchStateIsResetThenLoad : ∃ h', (haltedSession.reset testSeed).load [] = some h' ∧
    h'.core.mem.wf ∧ LaunchState [] testSeed h'.core := by
  refine ⟨{ core := (State.resetWith testSeed).loadBytes [], phase := .loaded }, rfl, by decide, rfl, rfl, rfl, rfl,
    witness_resetWith_reads testSeed, ?_, ?_, rfl, ?_, fun _ _ => rfl⟩
  · intro k hk
    simp [State.loadBytes, State.resetWith]
  · intro x y hx hy
    rw [Display.read_of_lt _ hx hy]
    simp [State.loadBytes, State.resetWith]
  · intro j hj
    exact absurd hj (Nat.not_lt_zero j)

theorem witness_EveryRunKeepsTheInvariants : ([] : List Byte).length ≤ 3584 ∧
    ∃ s, Memory.wf s.mem ∧ LaunchState [] testSeed s :=
  ⟨by decide, (witness_LaunchStateIsResetThenLoad.choose).core, witness_LaunchStateIsResetThenLoad.choose_spec.2⟩

/-- A state in the invariants with one open call and a program. -/
def invState : State := { oneCall with pc := 0x200, mem := [(0x200, 0x61), (0x201, 0x2A)] }

theorem witness_invState : Inv invState := by
  refine ⟨by decide, ?_, ?_, ?_, by decide, by decide, trivial⟩
  · intro a ha
    have h0 : a ≠ 0x200 := by omega
    have h1 : a ≠ 0x201 := by omega
    show Memory.read [(0x200, 0x61), (0x201, 0x2A)] a = 0
    rw [Memory.read_cons, if_neg h0, Memory.read_cons, if_neg h1]
    rfl
  · have h : ∀ k : Fin 16, invState.sp.val ≤ k.val → invState.stack[k.val] = 0 := by decide
    exact fun k hk => h ⟨k, hk⟩
  · have h : ∀ k : Fin 16, invState.stack[k.val].toNat ≤ 0x1000 := by decide
    exact fun k hk => h ⟨k, hk⟩

theorem witness_LoadKeepsTheInvariants : ∃ h', Inv invState ∧
    ({ core := invState, phase := .fresh } : HostSession).load [0x00, 0xEE] = some h' := ⟨_, witness_invState, rfl⟩
theorem witness_EveryStepKeepsTheInvariants : ∃ t, Inv invState ∧ step invState = .next t :=
  ⟨_, witness_invState, step_of_fetch (by decide) (by decide)⟩
/-- A step from the last counter that is fetched from, and from the largest counter there is. -/
theorem witness_PcNeverWraps : Inv invState ∧ (∃ t, step { invState with pc := 0xFFE } = .next t) ∧
    ∃ t, step { invState with pc := 0xFFFF } = .next t :=
  ⟨witness_invState, ⟨_, step_of_fetch (by decide) (by decide)⟩, ⟨_, step_of_endOfMemory (by decide) (by decide)⟩⟩
theorem witness_InspectionHidesOnlySeedAndMemory :
    at200.inspect = ({ at200 with seed := ⟨5, 6, 7, 8⟩, mem := [(3, 1)] } : State).inspect := rfl
theorem witness_WritePortIsHonouredOnlyBeforeTheFirstStep : freshSession.core.mem.wf ∧ freshSession.phase ≠ .stepped ∧
    0x200 ≤ (0x200 : Addr12).toNat ∧ (0x1FF : Addr12).toNat < 0x200 ∧ haltedSession.core.mem.wf ∧
    haltedSession.phase = .stepped := by decide

end Sys2Proof.Tests
end

section
/-! `MEM` is constant from the first step to the stop (R58): no handler writes it, so no step does, so no run does. -/

namespace Sys2Proof.Machine

theorem raiseHere_mem {r : FaultReason} {i : Instr} {s t : State} (h : raiseHere r i s = .next t) : t.mem = s.mem := by
  rw [raiseHere_eq] at h
  cases h
  exact State.stop_mem s _

theorem execCall_mem {nnn : Addr12} {s t : State} (h : exec (.call nnn) s = .next t) : t.mem = s.mem := by
  by_cases hsp : s.sp.val < 16
  · rw [execCall_of_lt hsp] at h
    cases h
    rfl
  · rw [execCall_full (by have := s.sp.isLt; omega)] at h
    exact raiseHere_mem h

theorem execRet_mem {b : Nibble} {s t : State} (h : exec (.ret b) s = .next t) : t.mem = s.mem := by
  cases hsp : s.sp.val with
  | zero =>
    rw [execRet_empty hsp] at h
    exact raiseHere_mem h
  | succ k =>
    rw [execRet_of_pos hsp (by have := s.sp.isLt; omega)] at h
    cases h
    rfl

theorem execDrw_mem {x y : Reg} {n : Nibble} {s t : State} (h : exec (.drw x y n) s = .next t) : t.mem = s.mem := by
  rcases execDrw_cases s x y n with hread | hgrid | ⟨-, -, hdraw⟩
  · exact raiseHere_mem (hread.symm.trans h)
  · exact raiseHere_mem (hgrid.symm.trans h)
  · rw [hdraw] at h
    cases h
    exact drawOnto_mem _ _ s

/-- No handler writes memory: the three that can also fault by cases of their outcome, a skip by its condition; every
other one is a single update of another item. -/
theorem exec_mem {i : Instr} {s t : State} (h : exec i s = .next t) : t.mem = s.mem := by
  cases i with
  | call nnn => exact execCall_mem h
  | ret b => exact execRet_mem h
  | drw x y n => exact execDrw_mem h
  | seImm | sneImm | seReg | sneReg =>
    cases h
    exact State.skipIf_mem s _
  | _ =>
    cases h
    rfl

/-- No step writes memory: the two stops before the fetch write `STATUS` alone, and a handler starts from a state whose
memory is that of the state stepped. -/
theorem step_mem {s t : State} (h : step s = .next t) : t.mem = s.mem := by
  obtain ⟨-, ⟨-, rfl⟩ | ⟨-, rfl⟩ | ⟨-, hexec⟩⟩ := step_cases h
  · exact State.stop_mem s _
  · exact State.stop_mem s _
  · calc t.mem = s.advancePC.mem := exec_mem hexec
      _ = s.mem := State.advancePC_mem s

/-- The induction over a run: what every step keeps, a run of any number of steps keeps. -/
theorem run_keeps {P : State → Prop} (hstep : ∀ s t, P s → step s = .next t → P t) (k : Nat) {s : State} (hs : P s) :
    P (run k s) := by
  induction k generalizing s with
  | zero => exact hs
  | succ k ih =>
    unfold run
    split
    · next t ht => exact ih (hstep s t hs ht)
    · exact hs
    · exact hs

theorem run_mem (k : Nat) (s : State) : (run k s).mem = s.mem :=
  run_keeps (P := fun t => t.mem = s.mem) (fun _ _ hs ht => (step_mem ht).trans hs) k rfl

/-- Settles O41: the step by its cases, the run by induction on the number of steps. -/
theorem noStepWritesMemory : Obligations.NoStepWritesMemory :=
  fun s _ k => ⟨step_mem, run_mem k s⟩

end Sys2Proof.Machine
end

section
/-! The decoder against R74's class table: the fields of a word read off its four hexadecimal digits, one lemma per
operand shape of a form, and the illegal words of R79 with the fault they raise (R97). -/

namespace Sys2Proof

/-! ## The fields of a word given by its digits (R71) -/

theorem wordOfDigits_toNat (op x y n : Nat) :
    (Machine.wordOfDigits op x y n).toNat = (op * 4096 + x * 256 + y * 16 + n) % 65536 :=
  BitVec.toNat_ofNat _ _

theorem opClass_wordOfDigits (op : Nat) (x y n : Reg) :
    opClass (Machine.wordOfDigits op x y n) = BitVec.ofNat 4 op := by
  apply BitVec.eq_of_toNat_eq
  rw [opClass_toNat, wordOfDigits_toNat, BitVec.toNat_ofNat]
  omega

theorem bitsX_wordOfDigits (op : Nat) (x y n : Reg) : bitsX (Machine.wordOfDigits op x y n) = regBits x := by
  apply BitVec.eq_of_toNat_eq
  rw [bitsX_toNat, wordOfDigits_toNat, regBits, BitVec.toNat_ofNat]
  omega

theorem bitsY_wordOfDigits (op : Nat) (x y n : Reg) : bitsY (Machine.wordOfDigits op x y n) = regBits y := by
  apply BitVec.eq_of_toNat_eq
  rw [bitsY_toNat, wordOfDigits_toNat, regBits, BitVec.toNat_ofNat]
  omega

theorem fieldN_wordOfDigits (op : Nat) (x y n : Reg) : fieldN (Machine.wordOfDigits op x y n) = regBits n := by
  apply BitVec.eq_of_toNat_eq
  rw [fieldN_toNat, wordOfDigits_toNat, regBits, BitVec.toNat_ofNat]
  omega

theorem fieldNN_wordOfDigits (op : Nat) (x y n : Reg) :
    fieldNN (Machine.wordOfDigits op x y n) = BitVec.ofNat 8 (16 * y + n) := by
  apply BitVec.eq_of_toNat_eq
  rw [fieldNN_toNat, wordOfDigits_toNat, BitVec.toNat_ofNat]
  omega

theorem fieldNNN_wordOfDigits (op : Nat) (x y n : Reg) :
    fieldNNN (Machine.wordOfDigits op x y n) = BitVec.ofNat 12 (256 * x + 16 * y + n) := by
  apply BitVec.eq_of_toNat_eq
  rw [fieldNNN_toNat, wordOfDigits_toNat, BitVec.toNat_ofNat]
  omega

theorem fieldX_wordOfDigits (op : Nat) (x y n : Reg) : fieldX (Machine.wordOfDigits op x y n) = x := by
  rw [fieldX, bitsX_wordOfDigits, regOf_regBits]

theorem fieldY_wordOfDigits (op : Nat) (x y n : Reg) : fieldY (Machine.wordOfDigits op x y n) = y := by
  rw [fieldY, bitsY_wordOfDigits, regOf_regBits]

/-! ## Decoding by operand shape (R72, R74): what a class decodes to in terms of a word's fields, it decodes to in terms
of the digits. -/

theorem decodeWord_digits_addr {op : Nat} {form : Addr12 → Instr} (x y n : Reg)
    (hform : ∀ w, opClass w = BitVec.ofNat 4 op → decodeWord w = form (fieldNNN w)) :
    decodeWord (Machine.wordOfDigits op x y n) = form (BitVec.ofNat 12 (256 * x + 16 * y + n)) := by
  rw [hform _ (opClass_wordOfDigits op x y n), fieldNNN_wordOfDigits]

theorem decodeWord_digits_reg_byte {op : Nat} {form : Reg → Byte → Instr} (x y n : Reg)
    (hform : ∀ w, opClass w = BitVec.ofNat 4 op → decodeWord w = form (fieldX w) (fieldNN w))
    :
    decodeWord (Machine.wordOfDigits op x y n) = form x (BitVec.ofNat 8 (16 * y + n)) := by
  rw [hform _ (opClass_wordOfDigits op x y n), fieldX_wordOfDigits, fieldNN_wordOfDigits]

theorem decodeWord_digits_reg_reg_nibble {op : Nat} {form : Reg → Reg → Nibble → Instr} (x y n : Reg)
    (hform : ∀ w, opClass w = BitVec.ofNat 4 op → decodeWord w = form (fieldX w) (fieldY w) (fieldN w))
    :
    decodeWord (Machine.wordOfDigits op x y n) = form x y (regBits n) := by
  rw [hform _ (opClass_wordOfDigits op x y n), fieldX_wordOfDigits, fieldY_wordOfDigits, fieldN_wordOfDigits]

/-- Class 8: the sub-selector `n` names the form (R77). -/
theorem decodeWord_digits_class8 (n : Reg) {form : Reg → Reg → Instr} (x y : Reg)
    (hform : ∀ w, fieldN w = regBits n → decodeClass8 w = form (fieldX w) (fieldY w)) :
    decodeWord (Machine.wordOfDigits 8 x y n) = form x y := by
  have hclass := decodeWord_of_class (opClass_wordOfDigits 8 x y n)
  calc decodeWord (Machine.wordOfDigits 8 x y n)
      _ = decodeClass8 (Machine.wordOfDigits 8 x y n) := hclass
      _ = form x y := by
        rw [hform _ (fieldN_wordOfDigits 8 x y n), fieldX_wordOfDigits, fieldY_wordOfDigits]

/-! ## Class 0: the low byte alone tells `RET` from `HALT` (R76) -/

theorem ofNat_digits_eq_retByte_iff (y n : Reg) :
    BitVec.ofNat 8 (16 * y + n) = retByte ↔ y.val = 14 ∧ n.val = 14 := by
  rw [← BitVec.toNat_inj, BitVec.toNat_ofNat, show retByte.toNat = 238 from rfl]
  omega

theorem decodeWord_digits_class0 (x y n : Reg) :
    decodeWord (Machine.wordOfDigits 0 x y n) =
      if y.val = 14 ∧ n.val = 14 then .ret (regBits x) else .halt (regBits x) (BitVec.ofNat 8 (16 * y + n)) := by
  have hclass := decodeWord_of_class (opClass_wordOfDigits 0 x y n)
  calc decodeWord (Machine.wordOfDigits 0 x y n)
      _ = decodeClass0 (Machine.wordOfDigits 0 x y n) := hclass
      _ = if y.val = 14 ∧ n.val = 14 then .ret (regBits x) else .halt (regBits x) (BitVec.ofNat 8 (16 * y + n)) := by
        rw [decodeClass0, fieldNN_wordOfDigits, bitsX_wordOfDigits]
        exact ite_congr (propext (ofNat_digits_eq_retByte_iff y n)) (fun _ => rfl) fun _ => rfl

/-! ## Illegal words (R79): each row's instruction encodes to the word it came from, so the fault records that word. -/

theorem opClass_append_bitsXY_fieldN (w : Word) : opClass w ++ (bitsXY w ++ fieldN w) = w := by
  rw [bitsXY_append_fieldN]
  exact opClass_append_fieldNNN w

/-- The low bits of a word are those of its low nibble. -/
theorem extractLsb'_fieldN (w : Word) {k : Nat} (hk : 0 + k ≤ 4) : (fieldN w).extractLsb' 0 k = w.extractLsb' 0 k :=
  BitVec.extractLsb'_extractLsb'_of_le hk

theorem class8_append_bitsXY {w : Word} (hop : opClass w = 0x8#4) {sel : Nibble} (hsel : fieldN w = sel) :
    0x8#4 ++ (bitsXY w ++ sel) = w := by
  rw [← hop, ← hsel]
  exact opClass_append_bitsXY_fieldN w

/-- The illegal sub-selectors 8 to B share bits 3:2. -/
theorem fieldN_of_8toB {w : Word} (h8 : 8 ≤ (fieldN w).toNat) (hB : (fieldN w).toNat < 12) :
    fieldN w = 0b10#2 ++ w.extractLsb' 0 2 := by
  have hbits : ∀ n : Nibble, 8 ≤ n.toNat → n.toNat < 12 → n = 0b10#2 ++ n.extractLsb' 0 2 := by decide
  rw [← extractLsb'_fieldN w (by decide)]
  exact hbits _ h8 hB

/-- The illegal sub-selectors C and D share bits 3:1. -/
theorem fieldN_of_CtoD {w : Word} (hC : 12 ≤ (fieldN w).toNat) (hD : (fieldN w).toNat < 14) :
    fieldN w = 0b110#3 ++ w.extractLsb' 0 1 := by
  have hbits : ∀ n : Nibble, 12 ≤ n.toNat → n.toNat < 14 → n = 0b110#3 ++ n.extractLsb' 0 1 := by decide
  rw [← extractLsb'_fieldN w (by decide)]
  exact hbits _ hC hD

/-- Classes E and F share bits 15:13. -/
theorem append_of_classEF {w : Word} (hE : 14 ≤ (opClass w).toNat) : 0b111#3 ++ w.extractLsb' 0 13 = w := by
  have htop : w.extractLsb' 13 3 = 0b111#3 := by
    have hw := w.isLt
    rw [opClass_toNat] at hE
    apply BitVec.eq_of_toNat_eq
    rw [BitVec.extractLsb'_toNat, Nat.shiftRight_eq_div_pow, BitVec.toNat_ofNat]
    omega
  rw [← htop, BitVec.extractLsb'_append_extractLsb'_eq_extractLsb' (by decide)]
  exact BitVec.extractLsb'_eq_self

theorem decodeClass8_of_8toB {w : Word} (h8 : 8 ≤ (fieldN w).toNat) (hB : (fieldN w).toNat < 12) :
    decodeClass8 w = .illegal88toB (bitsXY w) (w.extractLsb' 0 2) := by
  unfold decodeClass8
  generalize (fieldN w).toNat = n at h8 hB
  obtain rfl | rfl | rfl | rfl : n = 8 ∨ n = 9 ∨ n = 10 ∨ n = 11 := by omega
  all_goals rfl

theorem decodeClass8_of_CtoD {w : Word} (hC : 12 ≤ (fieldN w).toNat) (hD : (fieldN w).toNat < 14) :
    decodeClass8 w = .illegal8CtoD (bitsXY w) (w.extractLsb' 0 1) := by
  unfold decodeClass8
  generalize (fieldN w).toNat = n at hC hD
  obtain rfl | rfl : n = 12 ∨ n = 13 := by omega
  all_goals rfl

theorem decodeWord_of_classEF {w : Word} (hE : 14 ≤ (opClass w).toNat) :
    decodeWord w = .illegalEF (w.extractLsb' 0 13) := by
  have hF := (opClass w).isLt
  unfold decodeWord
  generalize (opClass w).toNat = c at hE hF
  obtain rfl | rfl : c = 14 ∨ c = 15 := by omega
  all_goals rfl

namespace Machine

/-- An instruction of an illegal row, with the word it encodes to, raises the dispatch failure with that word (R97). -/
theorem exec_raises_encoded {i : Instr} {s : State} {w : Word} (hexec : exec i s = raiseUnimplemented i s)
    (hw : encode i = w) :
    exec i s = .next { s with status := .faulted .unimplementedOpcode (s.pc - 2) (some w) } := by
  rw [hexec, ← hw]
  exact raiseHere_eq .unimplementedOpcode i s

/-- An illegal word raises UnimplementedOpcode with its address and itself (R74, R79, R97): one case for each row. -/
theorem exec_illegalWord {w : Word} (h : IllegalWord w) (s : State) :
    exec (decodeWord w) s = .next { s with status := .faulted .unimplementedOpcode (s.pc - 2) (some w) } := by
  rw [IllegalWord, ← opClass_toNat, ← fieldN_toNat] at h
  obtain ⟨hop, h8, hne⟩ | hE := h
  · replace hop : opClass w = 0x8#4 := BitVec.eq_of_toNat_eq hop
    have hdec : decodeWord w = decodeClass8 w := decodeWord_of_class hop
    rw [hdec]
    by_cases hB : (fieldN w).toNat < 12
    · rw [decodeClass8_of_8toB h8 hB]
      exact exec_raises_encoded rfl (class8_append_bitsXY hop (fieldN_of_8toB h8 hB))
    by_cases hD : (fieldN w).toNat < 14
    · rw [decodeClass8_of_CtoD (by omega) hD]
      exact exec_raises_encoded rfl (class8_append_bitsXY hop (fieldN_of_CtoD (by omega) hD))
    · have hF : fieldN w = 0xF#4 := BitVec.eq_of_toNat_eq (show (fieldN w).toNat = 15 by omega)
      have hrow : decodeClass8 w = .illegal8F (bitsXY w) := decodeClass8_of_selector hF
      rw [hrow]
      exact exec_raises_encoded rfl (class8_append_bitsXY hop hF)
  · rw [decodeWord_of_classEF hE]
    exact exec_raises_encoded rfl (append_of_classEF hE)

/-- The words R74 calls ILLEGAL, by their digits, are the illegal words by their number. -/
theorem illegalWord_of_digits {x y n : Reg} {w : Word}
    (h : (8 ≤ n.val ∧ n.val ≠ 14 ∧ w = wordOfDigits 8 x y n) ∨ w = wordOfDigits 14 x y n ∨ w = wordOfDigits 15 x y n) :
    IllegalWord w := by
  unfold IllegalWord
  obtain ⟨h8, hne, rfl⟩ | rfl | rfl := h <;> rw [wordOfDigits_toNat] <;> omega

/-- Settles O2: class 0 by its low byte, each other class by the shape of its operands, class 8 by its sub-selector, and
the illegal words by the rows of R79. -/
theorem decoderFollowsTheClassTable : Obligations.DecoderFollowsTheClassTable := by
  intro x y n
  refine ⟨fun hret => (decodeWord_digits_class0 x y n).trans (if_pos hret),
    fun hhalt => (decodeWord_digits_class0 x y n).trans (if_neg hhalt),
    decodeWord_digits_addr x y n fun _ h => decodeWord_of_class h,
    decodeWord_digits_addr x y n fun _ h => decodeWord_of_class h,
    decodeWord_digits_reg_byte x y n fun _ h => decodeWord_of_class h,
    decodeWord_digits_reg_byte x y n fun _ h => decodeWord_of_class h,
    decodeWord_digits_reg_reg_nibble x y n fun _ h => decodeWord_of_class h,
    decodeWord_digits_reg_byte x y n fun _ h => decodeWord_of_class h,
    decodeWord_digits_reg_byte x y n fun _ h => decodeWord_of_class h,
    decodeWord_digits_class8 0 x y fun _ h => decodeClass8_of_selector h,
    decodeWord_digits_class8 1 x y fun _ h => decodeClass8_of_selector h,
    decodeWord_digits_class8 2 x y fun _ h => decodeClass8_of_selector h,
    decodeWord_digits_class8 3 x y fun _ h => decodeClass8_of_selector h,
    decodeWord_digits_class8 4 x y fun _ h => decodeClass8_of_selector h,
    decodeWord_digits_class8 5 x y fun _ h => decodeClass8_of_selector h,
    decodeWord_digits_class8 6 x y fun _ h => decodeClass8_of_selector h,
    decodeWord_digits_class8 7 x y fun _ h => decodeClass8_of_selector h,
    decodeWord_digits_class8 14 x y fun _ h => decodeClass8_of_selector h,
    decodeWord_digits_reg_reg_nibble x y n fun _ h => decodeWord_of_class h,
    decodeWord_digits_addr x y n fun _ h => decodeWord_of_class h,
    decodeWord_digits_addr x y n fun _ h => decodeWord_of_class h,
    decodeWord_digits_reg_byte x y n fun _ h => decodeWord_of_class h,
    decodeWord_digits_reg_reg_nibble x y n fun _ h => decodeWord_of_class h,
    fun w s h => exec_illegalWord (illegalWord_of_digits h) s⟩

end Machine

end Sys2Proof
end

section
/-! The stages of a step (R90 to R97): the word fetched, the two outcomes of dispatch that run no handler, and the stages
as one statement. -/

namespace Sys2Proof.Machine

/-- A word of the sentinel decodes to `HALT` (R74, R76). -/
theorem decodeWord_of_sentinelWord {w : Word} (h : SentinelWord w) : decodeWord w = .halt (bitsX w) (fieldNN w) := by
  obtain ⟨hclass, hlow⟩ := h
  rw [← opClass_toNat] at hclass
  rw [← fieldNN_toNat] at hlow
  have hop : opClass w = 0x0#4 := BitVec.eq_of_toNat_eq hclass
  have hnot : fieldNN w ≠ retByte := fun heq => hlow (congrArg BitVec.toNat heq)
  calc decodeWord w
      _ = decodeClass0 w := decodeWord_of_class hop
      _ = .halt (bitsX w) (fieldNN w) := if_neg hnot

/-- The big-endian word at `PC` is the word fetched (R53, R92). -/
theorem eq_fetchWord {s : State} {w : Word}
    (h : w.toNat = (s.mem.read s.pc.toNat).toNat * 256 + (s.mem.read (s.pc.toNat + 1)).toNat) : w = fetchWord s :=
  BitVec.eq_of_toNat_eq (h.trans (Memory.readWord_toNat s.mem s.pc.toNat).symm)

theorem exec_halt (ignored : Nibble) (nn : Byte) (s : State) :
    exec (.halt ignored nn) s = .next (s.stop (.halted .unknownMiscOpcode)) :=
  halt_eq .unknownMiscOpcode s

theorem exec_sentinelWord {w : Word} (h : SentinelWord w) (s : State) :
    exec (decodeWord w) s = .next (s.stop (.halted .unknownMiscOpcode)) := by
  rw [decodeWord_of_sentinelWord h]
  exact exec_halt _ _ s

/-- After the advance, an illegal word's fault carries the address it was fetched from (R94, R97). -/
theorem exec_illegalWord_advancePC {w : Word} (h : IllegalWord w) (s : State) :
    exec (decodeWord w) s.advancePC = .next (s.advancePC.stop (.faulted .unimplementedOpcode s.pc (some w))) := by
  have haddr : s.advancePC.pc - 2 = s.pc := fetchedFrom_advancePC s
  rw [exec_illegalWord h, haddr]
  rfl

/-- Settles O7: the two stops before the fetch, then the fetched word by what it decodes to. -/
theorem stepFollowsItsStages : Obligations.StepFollowsItsStages := by
  intro s hrun
  refine ⟨step_of_endOfMemory hrun, fun hlast => ?lastByte, fun hpc w hw => ?fetch⟩
  case lastByte =>
    have haddr : s.pc = 4095 := BitVec.eq_of_toNat_eq hlast
    have hstep := step_of_fetchOutOfRange hrun hlast
    rw [haddr] at hstep
    exact hstep
  case fetch =>
    have hstep : step s = exec (decodeWord w) s.advancePC := by
      rw [eq_fetchWord hw]
      exact step_of_fetch hrun hpc
    exact ⟨hstep, fun hsentinel => hstep.trans (exec_sentinelWord hsentinel _),
      fun hillegal => hstep.trans (exec_illegalWord_advancePC hillegal s)⟩

/-- Settles O12: `HALT` stops the machine, and a stop writes `STATUS` alone. -/
theorem haltStopsCleanly : Obligations.HaltStopsCleanly :=
  fun s ignored nn => exec_halt ignored nn s

/-- Settles O13: an instruction of each illegal row raises the dispatch failure with its own encoding. -/
theorem illegalInstructionsFault : Obligations.IllegalInstructionsFault :=
  fun _ => ⟨fun _ _ => exec_raises_encoded rfl rfl, fun _ _ => exec_raises_encoded rfl rfl,
    fun _ => exec_raises_encoded rfl rfl, fun _ => exec_raises_encoded rfl rfl⟩

end Sys2Proof.Machine
end

section
/-! Register loads, the register ALU and the index load (R112 to R124). Every form is one register write, one result and
flag write, or one write of `I`, so its frame is that of the write; what is left is the value of the result and of the flag
as numbers, and the corner cases of R124 follow from the general rules. -/

namespace Sys2Proof.Machine

/-! ## Results as numbers (R110) -/

theorem sub_toNat_byte (a b : Byte) : (a - b).toNat = (a.toNat + 256 - b.toNat) % 256 := by
  have hb := b.isLt
  rw [BitVec.toNat_sub]
  omega

theorem ushiftRight_one_toNat_byte (b : Byte) : (b >>> 1).toNat = b.toNat / 2 := by
  rw [BitVec.toNat_ushiftRight, Nat.shiftRight_eq_div_pow, Nat.pow_one]

theorem shiftLeft_one_toNat_byte (b : Byte) : (b <<< 1).toNat = 2 * b.toNat % 256 := by
  rw [BitVec.toNat_shiftLeft, Nat.shiftLeft_eq, Nat.pow_one, Nat.mul_comm]

/-! ## Flags as numbers (R22) -/

theorem flagOf_decide_toNat (c : Prop) [Decidable c] : (flagOf (decide c)).toNat = if c then 1 else 0 := by
  by_cases h : c
  · simp [flagOf, h]
  · simp [flagOf, h]

theorem carryFlag_toNat (a b : Byte) : (carryFlag a b).toNat = if 255 < a.toNat + b.toNat then 1 else 0 :=
  flagOf_decide_toNat _

theorem greaterFlag_toNat (a b : Byte) : (greaterFlag a b).toNat = if b.toNat < a.toNat then 1 else 0 :=
  flagOf_decide_toNat _

/-! ## Forms that write one register or `I` -/

/-- Settles O19: the one register write of R112. -/
theorem loadImmediateWritesItsByte : Obligations.LoadImmediateWritesItsByte :=
  fun s x nn => ⟨_, rfl, s.getV_setV_same x nn, regsUnchangedBut_setV s x _, unchangedBut_setV s x _⟩

/-- Settles O20: the one register write of R113, whose value is a sum of bytes. -/
theorem addImmediateWrapsWithoutFlag : Obligations.AddImmediateWrapsWithoutFlag := by
  intro s x nn
  refine ⟨_, rfl, ?_, regsUnchangedBut_setV s x _, unchangedBut_setV s x _⟩
  rw [State.getV_setV_same]
  exact BitVec.toNat_add (s.getV x) nn

/-- Settles O21: each form is one register write, and the three logical ones act on each bit alone. -/
theorem moveAndLogicWriteOnlyTheirDestination : Obligations.MoveAndLogicWriteOnlyTheirDestination := by
  intro s x y
  refine ⟨⟨_, rfl, s.getV_setV_same x _, regsUnchangedBut_setV s x _, unchangedBut_setV s x _⟩,
    ⟨_, rfl, fun k => ?or, regsUnchangedBut_setV s x _, unchangedBut_setV s x _⟩,
    ⟨_, rfl, fun k => ?and, regsUnchangedBut_setV s x _, unchangedBut_setV s x _⟩,
    ⟨_, rfl, fun k => ?xor, regsUnchangedBut_setV s x _, unchangedBut_setV s x _⟩⟩
  case or => rw [State.getV_setV_same, BitVec.getLsbD_or]
  case and => rw [State.getV_setV_same, BitVec.getLsbD_and]
  case xor => rw [State.getV_setV_same, BitVec.getLsbD_xor]

/-- Settles O26: the one write of `I`, the zero-extended address (R123). -/
theorem indexLoadWritesItsAddress : Obligations.IndexLoadWritesItsAddress :=
  fun s nnn => ⟨_, rfl, immAddr_toNat nnn, unchangedBut_setI s _⟩

/-! ## Forms that write a result and then `VF` (R111) -/

/-- A form that writes its result and then its flag, with the two values as numbers. -/
theorem exec_setResultThenFlag_spec {i : Instr} {s : State} {x : Reg} {res flag : Byte} {r f : Nat}
    (hexec : exec i s = .next (s.setResultThenFlag x res flag)) (hres : res.toNat = r) (hflag : flag.toNat = f) :
    ∃ t, exec i s = .next t ∧ (x ≠ 15 → (t.getV x).toNat = r) ∧ (t.getV 15).toNat = f ∧
      RegsUnchangedBut [x, 15] s t ∧ UnchangedBut [.v] s t := by
  refine ⟨_, hexec, fun hx => ?result, ?flag, regsUnchangedBut_setResultThenFlag s x res flag,
    unchangedBut_setResultThenFlag s x res flag⟩
  case result => rw [State.getV_setResultThenFlag_dest s x res flag hx, hres]
  case flag => rw [State.getV_setResultThenFlag_flag, hflag]

/-- Settles O22: the sum of bytes and its carry. -/
theorem addRegistersSetsCarry : Obligations.AddRegistersSetsCarry :=
  fun s x y => exec_setResultThenFlag_spec rfl (BitVec.toNat_add (s.getV x) (s.getV y))
    (carryFlag_toNat (s.getV x) (s.getV y))

/-- Settles O23: `SUBN` is `SUB` with the operands of difference and flag exchanged. -/
theorem subtractionsSetStrictGreater : Obligations.SubtractionsSetStrictGreater :=
  fun s x y =>
    ⟨exec_setResultThenFlag_spec rfl (sub_toNat_byte (s.getV x) (s.getV y)) (greaterFlag_toNat (s.getV x) (s.getV y)),
      exec_setResultThenFlag_spec rfl (sub_toNat_byte (s.getV y) (s.getV x)) (greaterFlag_toNat (s.getV y) (s.getV x))⟩

/-- Settles O24: both shifts take result and flag from `V[Y]` alone. -/
theorem shiftsTakeTheirSourceFromY : Obligations.ShiftsTakeTheirSourceFromY :=
  fun s _ y =>
    ⟨exec_setResultThenFlag_spec rfl (ushiftRight_one_toNat_byte (s.getV y)) (lowBitFlag_toNat (s.getV y)),
      exec_setResultThenFlag_spec rfl (shiftLeft_one_toNat_byte (s.getV y)) (highBitFlag_toNat (s.getV y))⟩

/-! ## Corner cases of the flag-setting forms (R124) -/

/-- The carry of a byte added to itself is its top bit. -/
theorem carry_self (c : Nat) : (if 255 < c + c then 1 else 0) = if 128 ≤ c then 1 else 0 :=
  ite_congr (propext (by omega)) (fun _ => rfl) fun _ => rfl

/-- A byte is not strictly greater than itself. -/
theorem eq_zero_of_toNat_eq_greater_self {b : Byte} {c : Nat} (h : b.toNat = if c < c then 1 else 0) : b = 0 :=
  BitVec.eq_of_toNat_eq (h.trans (if_neg (Nat.lt_irrefl c)))

/-- A byte less itself is 0. -/
theorem eq_zero_of_toNat_eq_sub_self {b : Byte} {c : Nat} (h : b.toNat = (c + 256 - c) % 256) : b = 0 := by
  rw [Nat.add_sub_cancel_left] at h
  exact BitVec.eq_of_toNat_eq h

/-- Settles O25: each row is a case of the general rules (R118 to R122): `Y = X`; `X = 15`, where the flag is what
remains; and `X = Y = 15`, which is `X = 15` at `Y = 15`. -/
theorem flagSettersInTheirCornerCases : Obligations.FlagSettersInTheirCornerCases := by
  intro s
  refine ⟨fun x hx => ?sameRegister, (and_iff_left_of_imp fun destinationVF => ?bothVF).mpr fun y => ?destinationVF⟩
  case sameRegister =>
    obtain ⟨t4, h4, res4, flag4, -⟩ := addRegistersSetsCarry s x x
    obtain ⟨⟨t5, h5, res5, flag5, -⟩, t7, h7, res7, flag7, -⟩ := subtractionsSetStrictGreater s x x
    obtain ⟨⟨t6, h6, res6, flag6, -⟩, te, he, rese, flage, -⟩ := shiftsTakeTheirSourceFromY s x x
    exact ⟨t4, t5, t6, t7, te, h4, h5, h6, h7, he, by rw [res4 hx, Nat.two_mul], flag4.trans (carry_self _),
      eq_zero_of_toNat_eq_sub_self (res5 hx), eq_zero_of_toNat_eq_greater_self flag5, res6 hx, flag6,
      eq_zero_of_toNat_eq_sub_self (res7 hx), eq_zero_of_toNat_eq_greater_self flag7, rese hx, flage⟩
  case destinationVF =>
    obtain ⟨t4, h4, -, flag4, -⟩ := addRegistersSetsCarry s 15 y
    obtain ⟨⟨t5, h5, -, flag5, -⟩, t7, h7, -, flag7, -⟩ := subtractionsSetStrictGreater s 15 y
    obtain ⟨⟨t6, h6, -, flag6, -⟩, te, he, -, flage, -⟩ := shiftsTakeTheirSourceFromY s 15 y
    exact ⟨t4, t5, t6, t7, te, h4, h5, h6, h7, he, flag4, flag5, flag6, flag7, flage⟩
  case bothVF =>
    obtain ⟨t4, t5, t6, t7, te, h4, h5, h6, h7, he, flag4, flag5, flag6, flag7, flage⟩ := destinationVF 15
    exact ⟨t4, t5, t6, t7, te, h4, h5, h6, h7, he, flag4.trans (carry_self _),
      eq_zero_of_toNat_eq_greater_self flag5, flag6, eq_zero_of_toNat_eq_greater_self flag7, flage⟩

end Sys2Proof.Machine
end

section
/-! Control flow (R130 to R138). A jump is one write of `PC`, a skip one conditional advance, a call or return one update of
`PC` and the stack; a step that executes an instruction is its meaning at the advanced `PC`. -/

namespace Sys2Proof.Machine

/-! ## Jumps (R130, R133) -/

/-- Settles O27: the one write of `PC`, the zero-extended address (R130). -/
theorem jumpSetsTheCounter : Obligations.JumpSetsTheCounter :=
  fun s nnn => ⟨_, rfl, immAddr_toNat nnn, unchangedBut_setPC s _⟩

/-- Settles O28: the target is the sum as a number, so the stages of the next step apply to it. -/
theorem offsetJumpIsNotMasked : Obligations.OffsetJumpIsNotMasked := by
  intro s nnn
  have hpc : (s.setPC (offsetTarget nnn s)).pc.toNat = nnn.toNat + (s.getV 0).toNat := offsetTarget_toNat nnn s
  have hstages := stepFollowsItsStages (s.setPC (offsetTarget nnn s))
  refine ⟨_, rfl, hpc, unchangedBut_setPC s _, fun hrun hpast => ?pastMemory, fun hrun hlast => ?lastByte⟩
  case pastMemory =>
    obtain ⟨hend, -⟩ := hstages hrun
    exact hend (Nat.le_trans hpast (Nat.le_of_eq hpc.symm))
  case lastByte =>
    obtain ⟨-, hfault, -⟩ := hstages hrun
    exact hfault (hpc.trans hlast)

/-! ## Call and return (R131, R132) -/

/-- The frame of a call and of a return. -/
theorem unchangedBut_pc_stack_sp (s : State) (pc : Word) (stack : Vector Word 16) (sp : Fin 17) :
    UnchangedBut [.pc, .stack, .sp] s { s with pc := pc, stack := stack, sp := sp } := by
  refine unchangedBut_of fun p => ?_
  cases p <;> simp [SameAt]

/-- Settles O29: below the capacity the slot `SP` names is written, on a full stack the fault writes `STATUS` alone. -/
theorem callPushesTheAdvancedCounter : Obligations.CallPushesTheAdvancedCounter := by
  refine fun s nnn => ⟨fun hlt => ?push, fun hfull => execCall_full hfull nnn⟩
  case push =>
    exact ⟨_, execCall_of_lt hlt nnn, Vector.getElem_set_self hlt,
      fun k hk hne => Vector.getElem_set_ne hlt hk hne.symm, rfl, immAddr_toNat nnn, unchangedBut_pc_stack_sp s _ _ _⟩

/-- Settles O30: above 0 the top slot is read and zeroed, on an empty stack the fault writes `STATUS` alone. -/
theorem returnPopsAndZeroesTheSlot : Obligations.ReturnPopsAndZeroesTheSlot := by
  refine fun s ignored => ⟨fun k hk hsp => ?pop, fun hempty => execRet_empty hempty ignored⟩
  case pop =>
    exact ⟨_, execRet_of_pos hsp hk ignored, rfl, rfl, Vector.getElem_set_self hk,
      fun j hj hne => Vector.getElem_set_ne hk hj hne.symm, unchangedBut_pc_stack_sp s _ _ _⟩

/-! ## Skips (R134 to R138) -/

/-- A form that skips on a test, with the test as the proposition it decides. -/
theorem exec_skipIf_spec {i : Instr} {s : State} {c : Bool} {p : Prop} [Decidable p]
    (hexec : exec i s = .next (s.skipIf c)) (hc : c = true ↔ p) :
    ∃ t, exec i s = .next t ∧ t.pc = (if p then s.pc + 2 else s.pc) ∧ UnchangedBut [.pc] s t := by
  refine ⟨_, hexec, ?pc, unchangedBut_skipIf s c⟩
  case pc => simp only [State.skipIf_pc, hc]

/-- Settles O32: each form is one skip, on equality or on difference. -/
theorem skipsTestForEquality : Obligations.SkipsTestForEquality :=
  fun _ _ _ _ _ => ⟨exec_skipIf_spec rfl beq_iff_eq, exec_skipIf_spec rfl bne_iff_ne, exec_skipIf_spec rfl beq_iff_eq,
    exec_skipIf_spec rfl bne_iff_ne⟩

/-- The next step executes `i` exactly when it fetches a word that decodes to `i` (R91 to R93). -/
theorem nextInstr_eq_some_iff {s : State} {i : Instr} :
    nextInstr s = some i ↔ (s.status = .running ∧ s.pc.toNat < 4095) ∧ decodeWord (fetchWord s) = i := by
  have hroom : s.pc.toNat + 1 < Config.memSize ↔ s.pc.toNat < 4095 := Nat.succ_lt_succ_iff
  simp [nextInstr, hroom]

/-- A step that executes `i` runs it at the advanced `PC` (R94, R95). -/
theorem step_of_nextInstr {s : State} {i : Instr} (h : nextInstr s = some i) : step s = exec i s.advancePC := by
  obtain ⟨⟨hrun, hpc⟩, rfl⟩ := nextInstr_eq_some_iff.mp h
  exact step_of_fetch hrun hpc

/-- From a `PC` a word is fetched at, neither the advance nor a skip's extra 2 wraps (R25, R138). -/
theorem advancePC_pc_add_two_toNat {s : State} (hpc : s.pc.toNat < 4095) :
    (s.advancePC.pc + 2).toNat = s.pc.toNat + 4 := by
  have hadv := advancePC_toNat hpc
  have h2 : (2 : Word).toNat = 2 := rfl
  rw [BitVec.toNat_add, h2]
  omega

/-- A whole step of a form that, entered with the advanced `PC`, adds 2 to it when `p` holds (R138). -/
theorem step_skip_toNat {s : State} {i : Instr} {p : Prop} [Decidable p] (hnext : nextInstr s = some i)
    (hexec : ∃ t, exec i s.advancePC = .next t ∧ t.pc = (if p then s.advancePC.pc + 2 else s.advancePC.pc) ∧
      UnchangedBut [.pc] s.advancePC t) :
    ∃ t, step s = .next t ∧ t.pc.toNat = s.pc.toNat + (if p then 4 else 2) := by
  obtain ⟨⟨-, hfetch⟩, -⟩ := nextInstr_eq_some_iff.mp hnext
  obtain ⟨t, ht, hpc, -⟩ := hexec
  refine ⟨t, (step_of_nextInstr hnext).trans ht, ?_⟩
  rw [hpc]
  by_cases hp : p
  · rw [if_pos hp, if_pos hp, advancePC_pc_add_two_toNat hfetch]
  · rw [if_neg hp, if_neg hp, advancePC_toNat hfetch]

/-- Settles O33: each skip's rule (R134 to R137) at the advanced `PC`, whose registers are those of the state stepped. -/
theorem skipAddsExactlyTwoExtra : Obligations.SkipAddsExactlyTwoExtra := by
  intro s x y nn ignored
  obtain ⟨hseImm, hsneImm, hseReg, hsneReg⟩ := skipsTestForEquality s.advancePC x y nn ignored
  refine ⟨fun h => step_skip_toNat h hseImm, fun h => ?sneImm, fun h => step_skip_toNat h hseReg, fun h => ?sneReg⟩
  case sneImm =>
    rw [← ite_not]
    exact step_skip_toNat h hsneImm
  case sneReg =>
    rw [← ite_not]
    exact step_skip_toNat h hsneReg

end Sys2Proof.Machine
end

section
/-! The pseudo-random generator (R150 to R154). `RND` is one register write and one write of the seed; no other
instruction touches the seed, so along a run the seed counts the `RND` executed. -/

namespace Sys2Proof.Machine

/-! ## One `RND` (R152) -/

theorem exec_rnd (x : Reg) (nn : Byte) (s : State) :
    exec (.rnd x nn) s = .next ((s.setV x (Config.prngByte s.seed &&& nn)).setSeed (Config.prngReseed s.seed)) := rfl

@[simp] theorem State.getV_setSeed (s : State) (sd : Seed) (r : Reg) : (s.setSeed sd).getV r = s.getV r :=
  State.getV_congr (s.setSeed_v sd) r

theorem regsUnchangedBut_setV_setSeed (s : State) (x : Reg) (b : Byte) (sd : Seed) :
    RegsUnchangedBut [x] s ((s.setV x b).setSeed sd) := by
  intro r hr
  rw [State.getV_setSeed]
  exact regsUnchangedBut_setV s x b r hr

theorem unchangedBut_setV_setSeed (s : State) (x : Reg) (b : Byte) (sd : Seed) :
    UnchangedBut [.v, .seed] s ((s.setV x b).setSeed sd) := by
  refine unchangedBut_of fun p => ?_
  cases p <;> simp [SameAt]

/-- Settles O34: the register write and the write of the seed, neither depending on the mask. -/
theorem rndDrawsAndReseeds : Obligations.RndDrawsAndReseeds := by
  intro s x nn
  refine ⟨_, exec_rnd x nn s, fun k => ?bit, State.setSeed_seed _ _, regsUnchangedBut_setV_setSeed s x _ _,
    unchangedBut_setV_setSeed s x _ _⟩
  case bit => rw [State.getV_setSeed, State.getV_setV_same, BitVec.getLsbD_and]

/-! ## Frames of the instructions that can fault (R131, R132, R162) -/

theorem raiseHere_unchangedBut {r : FaultReason} {i : Instr} {s t : State} (h : raiseHere r i s = .next t) :
    UnchangedBut [.status] s t := by
  rw [raiseHere_eq] at h
  cases h
  exact unchangedBut_stop s _

theorem execCall_unchangedBut {nnn : Addr12} {s t : State} (h : exec (.call nnn) s = .next t) :
    UnchangedBut [.pc, .stack, .sp, .status] s t := by
  by_cases hsp : s.sp.val < 16
  · rw [execCall_of_lt hsp] at h
    cases h
    exact (unchangedBut_pc_stack_sp s _ _ _).mono (by decide)
  · rw [execCall_full (by have := s.sp.isLt; omega)] at h
    exact (raiseHere_unchangedBut h).mono (by decide)

theorem execRet_unchangedBut {b : Nibble} {s t : State} (h : exec (.ret b) s = .next t) :
    UnchangedBut [.pc, .stack, .sp, .status] s t := by
  cases hsp : s.sp.val with
  | zero =>
    rw [execRet_empty hsp] at h
    exact (raiseHere_unchangedBut h).mono (by decide)
  | succ k =>
    rw [execRet_of_pos hsp (by have := s.sp.isLt; omega)] at h
    cases h
    exact (unchangedBut_pc_stack_sp s _ _ _).mono (by decide)

theorem unchangedBut_drawOnto (c : Bool) (o : DrawOperands) (s : State) :
    UnchangedBut [.v, .display] s (drawOnto c o s) := by
  refine unchangedBut_of fun p => ?_
  cases p <;> simp [SameAt]

theorem execDrw_unchangedBut {x y : Reg} {n : Nibble} {s t : State} (h : exec (.drw x y n) s = .next t) :
    UnchangedBut [.v, .display, .status] s t := by
  rcases execDrw_cases s x y n with hread | hgrid | ⟨-, -, hdraw⟩
  · exact (raiseHere_unchangedBut (hread.symm.trans h)).mono (by decide)
  · exact (raiseHere_unchangedBut (hgrid.symm.trans h)).mono (by decide)
  · rw [hdraw] at h
    cases h
    exact (unchangedBut_drawOnto _ _ s).mono (by decide)

/-! ## The seed over one instruction and over one step (R28, R153) -/

/-- `RND` reseeds once and no other instruction touches the seed. -/
theorem exec_seed {i : Instr} {s t : State} (h : exec i s = .next t) :
    t.seed = reseedTimes (if isRnd i then 1 else 0) s.seed := by
  cases i with
  | rnd x nn =>
    rw [exec_rnd] at h
    cases h
    rfl
  | call nnn => exact execCall_unchangedBut h .seed (by decide)
  | ret b => exact execRet_unchangedBut h .seed (by decide)
  | drw x y n => exact execDrw_unchangedBut h .seed (by decide)
  | seImm | sneImm | seReg | sneReg =>
    cases h
    exact State.skipIf_seed s _
  | _ =>
    cases h
    rfl

theorem nextIsRnd_of_nextInstr {s : State} {i : Instr} (h : nextInstr s = some i) : nextIsRnd s = isRnd i := by
  rw [nextIsRnd, h]
  rfl

theorem nextIsRnd_of_nextInstr_none {s : State} (h : nextInstr s = none) : nextIsRnd s = false := by
  rw [nextIsRnd, h]
  rfl

/-- A step that fetches no word is one of the two stops before the fetch (R91, R92). -/
theorem step_unchangedBut_of_nextInstr_none {s t : State} (hnone : nextInstr s = none) (h : step s = .next t) :
    UnchangedBut [.status] s t := by
  obtain ⟨hrun, ⟨-, rfl⟩ | ⟨-, rfl⟩ | ⟨hpc, -⟩⟩ := step_cases h
  · exact unchangedBut_stop s _
  · exact unchangedBut_stop s _
  · have hsome : nextInstr s = some (decodeWord (fetchWord s)) := nextInstr_eq_some_iff.mpr ⟨⟨hrun, hpc⟩, rfl⟩
    cases hnone.symm.trans hsome

/-- A step reseeds once if it executes an `RND`, and otherwise keeps the seed. -/
theorem step_seed {s t : State} (h : step s = .next t) :
    t.seed = reseedTimes (if nextIsRnd s then 1 else 0) s.seed := by
  cases hnext : nextInstr s with
  | none =>
    rw [nextIsRnd_of_nextInstr_none hnext]
    exact step_unchangedBut_of_nextInstr_none hnext h .seed (by decide)
  | some i =>
    rw [step_of_nextInstr hnext] at h
    rw [nextIsRnd_of_nextInstr hnext, ← State.advancePC_seed s]
    exact exec_seed h

/-- A machine that has no step executes no `RND`, since every instruction answers a next state. -/
theorem nextIsRnd_of_not_next {s : State} (h : ∀ t, step s ≠ .next t) : nextIsRnd s = false := by
  cases hnext : nextInstr s with
  | none => exact nextIsRnd_of_nextInstr_none hnext
  | some i =>
    obtain ⟨t, ht⟩ := exec_next i s.advancePC
    exact absurd ((step_of_nextInstr hnext).trans ht) (h t)

/-! ## The last step of a run (R98) -/

theorem run_succ_of_next {s t : State} (h : step s = .next t) (k : Nat) : run (k + 1) s = run k t := by
  rw [run, h]

theorem run_of_not_next {s : State} (h : ∀ t, step s ≠ .next t) (k : Nat) : run k s = s := by
  cases k with
  | zero => rfl
  | succ k =>
    unfold run
    split
    · next t ht => exact absurd ht (h t)
    · rfl
    · rfl

/-- A run of `k + 1` steps takes one more step from where the run of `k` steps is, or stays there if there is none. -/
theorem run_succ_cases (k : Nat) (s : State) :
    step (run k s) = .next (run (k + 1) s) ∨ ((∀ t, step (run k s) ≠ .next t) ∧ run (k + 1) s = run k s) := by
  induction k generalizing s with
  | zero =>
    by_cases hnext : ∃ t, step s = .next t
    · obtain ⟨t, ht⟩ := hnext
      rw [run_succ_of_next ht]
      exact .inl ht
    · exact .inr ⟨not_exists.mp hnext, run_of_not_next (not_exists.mp hnext) 1⟩
  | succ k ih =>
    by_cases hnext : ∃ t, step s = .next t
    · obtain ⟨t, ht⟩ := hnext
      rw [run_succ_of_next ht k, run_succ_of_next ht (k + 1)]
      exact ih t
    · have hstuck := not_exists.mp hnext
      rw [run_of_not_next hstuck (k + 1), run_of_not_next hstuck (k + 1 + 1)]
      exact .inr ⟨hstuck, rfl⟩

/-! ## The seed over a run (R153) -/

theorem reseedTimes_add (m n : Nat) (sd : Seed) : reseedTimes (m + n) sd = reseedTimes n (reseedTimes m sd) := by
  induction n with
  | zero => rfl
  | succ n ih => exact congrArg Config.prngReseed ih

theorem run_succ_seed (k : Nat) (s : State) :
    (run (k + 1) s).seed = reseedTimes (if nextIsRnd (run k s) then 1 else 0) (run k s).seed := by
  rcases run_succ_cases k s with hstep | ⟨hstuck, hstay⟩
  · exact step_seed hstep
  · rw [hstay, nextIsRnd_of_not_next hstuck]
    rfl

theorem run_seed (k : Nat) (s : State) : (run k s).seed = reseedTimes (rndCount k s) s.seed := by
  induction k with
  | zero => rfl
  | succ k ih =>
    calc (run (k + 1) s).seed
      _ = reseedTimes (if nextIsRnd (run k s) then 1 else 0) (run k s).seed := run_succ_seed k s
      _ = reseedTimes (if nextIsRnd (run k s) then 1 else 0) (reseedTimes (rndCount k s) s.seed) := by rw [ih]
      _ = reseedTimes (rndCount (k + 1) s) s.seed := (reseedTimes_add _ _ _).symm

/-- A whole step that executes `RND` (R94, R152): the advance before it touches neither the registers nor the seed. -/
theorem step_rnd {s : State} {x : Reg} {nn : Byte} (h : nextInstr s = some (.rnd x nn)) :
    ∃ t, step s = .next t ∧ t.getV x = Config.prngByte s.seed &&& nn ∧ t.seed = Config.prngReseed s.seed := by
  refine ⟨_, (step_of_nextInstr h).trans (exec_rnd x nn _), ?drawn, rfl⟩
  case drawn => rw [State.getV_setSeed, State.getV_setV_same, State.advancePC_seed]

/-- Settles O35: the seed by induction on the number of steps, then one more step that executes `RND`. -/
theorem seedCountsTheRndExecuted : Obligations.SeedCountsTheRndExecuted := by
  refine fun s k => ⟨run_seed k s, fun x nn hnext => ?nextRnd⟩
  case nextRnd =>
    have hrnd := step_rnd hnext
    rw [run_seed k s] at hrnd
    exact hrnd

end Sys2Proof.Machine
end

section
/-! The draw (R161 to R166). The two whole-sprite tests say that some single access is out of range; a draw that passes
them leaves the composite on the grid and the flag in `VF`, and the composite undoes itself. -/

namespace Sys2Proof.Machine

/-! ## The whole-sprite tests, access by access (R162) -/

theorem readsOutOfRange_iff_exists (o : DrawOperands) :
    o.readsOutOfRange = true ↔ ∃ r, r < o.n ∧ 4096 ≤ o.base + r := by
  rw [readsOutOfRange_iff]
  constructor
  · rintro ⟨hrows, hlast⟩
    exact ⟨o.n - 1, by omega, by omega⟩
  · rintro ⟨r, hr, hpast⟩
    exact ⟨by omega, by omega⟩

/-- The last cell of the last row is the farthest in both directions, because the cursor drifts (R164). -/
theorem drawsOutOfRange_iff_exists (o : DrawOperands) :
    o.drawsOutOfRange = true ↔ ∃ r k, r < o.n ∧ k < 8 ∧ (64 ≤ o.x0 + 8 * r + k ∨ 32 ≤ o.y0 + r) := by
  rw [drawsOutOfRange_iff]
  constructor
  · rintro ⟨hrows, hlast⟩
    exact ⟨o.n - 1, 7, by omega, by omega, by omega⟩
  · rintro ⟨r, k, hr, hk, hoff⟩
    exact ⟨by omega, by omega⟩

theorem DrawOperands.InRange.readsOutOfRange {o : DrawOperands} (h : o.InRange) : o.readsOutOfRange = false := by
  rw [Bool.eq_false_iff, Ne, readsOutOfRange_iff_exists]
  rintro ⟨r, hr, hpast⟩
  obtain ⟨hbyte, -⟩ := h r 0 hr (by decide)
  omega

theorem DrawOperands.InRange.drawsOutOfRange {o : DrawOperands} (h : o.InRange) : o.drawsOutOfRange = false := by
  rw [Bool.eq_false_iff, Ne, drawsOutOfRange_iff_exists]
  rintro ⟨r, k, hr, hk, hoff⟩
  obtain ⟨-, hcolumn, hrow⟩ := h r k hr hk
  omega

/-- A draw whose every access is in range completes. -/
theorem exec_drw_of_inRange {s : State} {x y : Reg} {n : Nibble} (h : (drawOperands x y n s).InRange) :
    exec (.drw x y n) s = .next (drawOnto Config.drwClearsVf (drawOperands x y n s) s) :=
  execDrw_inRange h.readsOutOfRange h.drawsOutOfRange

/-- Row 8 starts 64 columns past `x0`, so a ninth row never fits (R164). -/
theorem DrawOperands.not_inRange_of_nine_le {o : DrawOperands} (h : 9 ≤ o.n) : ¬ o.InRange := by
  intro hin
  obtain ⟨-, hcolumn, -⟩ := hin 8 0 (by omega) (by decide)
  omega

theorem DrawOperands.inRange_of_no_rows {o : DrawOperands} (h : o.n = 0) : o.InRange := by
  intro r k hr
  omega

/-- Settles O39: each whole-sprite test is some access out of range, and a draw that passes both writes no `STATUS`. -/
theorem drawFaultsBeforeAnyWrite : Obligations.DrawFaultsBeforeAnyWrite := by
  intro s x y n
  refine ⟨fun hread => ?memory, fun hread hdraw => ?grid, fun hin => ?completes, fun hn => ?tooManyRows,
    fun hn => ?noRows⟩
  case memory => exact execDrw_readsOutOfRange ((readsOutOfRange_iff_exists (drawOperands x y n s)).mpr hread)
  case grid =>
    have hbytes : (drawOperands x y n s).readsOutOfRange = false :=
      Bool.eq_false_iff.mpr (mt (readsOutOfRange_iff_exists _).mp hread)
    exact execDrw_drawsOutOfRange hbytes ((drawsOutOfRange_iff_exists (drawOperands x y n s)).mpr hdraw)
  case completes => exact ⟨_, exec_drw_of_inRange hin, drawOnto_status _ _ s⟩
  case tooManyRows => exact DrawOperands.not_inRange_of_nine_le hn
  case noRows =>
    refine ⟨_, exec_drw_of_inRange (DrawOperands.inRange_of_no_rows hn), ?_, drawOnto_status _ _ s⟩
    rw [drawOnto_display, composite_zero hn]

/-! ## What a completed draw writes (R161, R163, R164) -/

theorem regsUnchangedBut_drawOnto (c : Bool) (o : DrawOperands) (s : State) :
    RegsUnchangedBut [15] s (drawOnto c o s) :=
  fun _ hr => drawOnto_getV_other c o s (List.ne_of_not_mem_cons hr)

/-- Settles O37: the cells the composite writes, and the frames of the display, the registers and the state. -/
theorem drawXorsEachRowAtItsDriftingCursor : Obligations.DrawXorsEachRowAtItsDriftingCursor :=
  fun s _ _ _ hin => ⟨_, exec_drw_of_inRange hin,
    fun _ _ hr hk => composite_read_cell hin.drawsOutOfRange s hr hk,
    fun _ _ hother => composite_read_other hin.drawsOutOfRange s hother,
    regsUnchangedBut_drawOnto _ _ s, unchangedBut_drawOnto _ _ s⟩

/-- A false result is noted exactly when a cell of the sprite reads false once the draw is complete (R163). -/
theorem composite_anyFalse_iff_read {o : DrawOperands} (hb : o.drawsOutOfRange = false) (s : State) :
    (composite o s).anyFalse = true ↔
      ∃ r k, r < o.n ∧ k < 8 ∧ (composite o s).grid.read (o.x0 + 8 * r + k) (o.y0 + r) = false := by
  rw [composite_anyFalse hb]
  constructor
  · rintro ⟨r, k, hr, hk, hcell⟩
    exact ⟨r, k, hr, hk, (composite_read_cell hb s hr hk).trans hcell⟩
  · rintro ⟨r, k, hr, hk, hcell⟩
    exact ⟨r, k, hr, hk, (composite_read_cell hb s hr hk).symm.trans hcell⟩

/-- Settles O38: `VF` is the flag of the composite's note, for either value of the open parameter. -/
theorem drawFlagReportsAnyFalseCell : Obligations.DrawFlagReportsAnyFalseCell := by
  intro s x y n hin
  have hnoted := composite_anyFalse_iff_read hin.drawsOutOfRange s
  refine ⟨_, exec_drw_of_inRange hin, fun hfalse => ?someFalse, fun htrue => ?allTrue⟩
  case someFalse => rw [drawOnto_getV_flag, hnoted.mpr hfalse, drawFlag, if_pos rfl]
  case allTrue =>
    have hnone : (composite (drawOperands x y n s) s).anyFalse = false := by
      rw [Bool.eq_false_iff, Ne, hnoted]
      rintro ⟨r, k, hr, hk, hcell⟩
      exact Bool.false_ne_true (hcell.symm.trans (htrue r k hr hk))
    rw [drawOnto_getV_flag, hnone, drawFlag, if_neg Bool.false_ne_true]

/-! ## Drawing twice (R166) -/

/-- The display after any draw: a fault leaves it, a completed draw leaves the composite. -/
theorem execDrw_display {x y : Reg} {n : Nibble} {s t : State} (h : exec (.drw x y n) s = .next t) :
    t.display = if (drawOperands x y n s).readsOutOfRange || (drawOperands x y n s).drawsOutOfRange then s.display
      else (composite (drawOperands x y n s) s).grid := by
  cases hread : (drawOperands x y n s).readsOutOfRange with
  | true => exact raiseHere_unchangedBut ((execDrw_readsOutOfRange hread).symm.trans h) .display (by decide)
  | false =>
    cases hdraw : (drawOperands x y n s).drawsOutOfRange with
    | true => exact raiseHere_unchangedBut ((execDrw_drawsOutOfRange hread hdraw).symm.trans h) .display (by decide)
    | false =>
      rw [execDrw_inRange hread hdraw] at h
      cases h
      rfl

theorem drawOperands_congr {x y : Reg} {s m : State} (hi : m.i = s.i) (hx : m.getV x = s.getV x)
    (hy : m.getV y = s.getV y) (n : Nibble) : drawOperands x y n m = drawOperands x y n s := by
  rw [drawOperands, drawOperands, hi, hx, hy]

/-- A cell of the sprite is xored with the same bit by both composites; any other cell is touched by neither. -/
theorem composite_composite {o : DrawOperands} (hb : o.drawsOutOfRange = false) {s m : State}
    (hdisplay : m.display = (composite o s).grid) (hmem : m.mem = s.mem) : (composite o m).grid = s.display := by
  refine Display.ext_of_read fun cx cy _ _ => ?_
  by_cases htouched : o.touches cx cy
  · obtain ⟨r, k, hr, hk, rfl, rfl⟩ := htouched
    rw [composite_read_cell hb m hr hk, drawnCell, hdisplay, hmem, composite_read_cell hb s hr hk, drawnCell,
      Bool.xor_assoc, Bool.xor_self, Bool.xor_false]
  · rw [composite_read_other hb m htouched, hdisplay, composite_read_other hb s htouched]

/-- Settles O40: the two draws sample the same operands, so both fault or both complete. -/
theorem drawingTwiceRestoresTheDisplay : Obligations.DrawingTwiceRestoresTheDisplay := by
  intro s t m u x y n hfirst hdisplay hmem hi hx hy hsecond
  have ht := execDrw_display hfirst
  have hu := execDrw_display hsecond
  rw [drawOperands_congr hi hx hy] at hu
  by_cases hfault : ((drawOperands x y n s).readsOutOfRange || (drawOperands x y n s).drawsOutOfRange) = true
  · rw [if_pos hfault] at ht hu
    exact hu.trans (hdisplay.trans ht)
  · rw [if_neg hfault] at ht hu
    obtain ⟨-, hgrid⟩ := Bool.or_eq_false_iff.mp (Bool.eq_false_iff.mpr hfault)
    exact hu.trans (composite_composite hgrid (hdisplay.trans ht) hmem)

end Sys2Proof.Machine
end

section
/-! Stops (R180 to R184). Which instructions can stop the machine; the table of R181 as one predicate of the state
before the step; and that a step stops with a given `STATUS` exactly when the table says so, leaving the state R184 says. -/

namespace Sys2Proof.Machine

/-! ## Which instructions can stop the machine (R182) -/

/-- Whether an instruction can stop the machine (R182). -/
def canStop : Instr → Bool
  | .ret _ => true
  | .halt _ _ => true
  | .call _ => true
  | .drw _ _ _ => true
  | .illegal88toB _ _ => true
  | .illegal8CtoD _ _ => true
  | .illegal8F _ => true
  | .illegalEF _ => true
  | _ => false

theorem exec_status_of_not_canStop {i : Instr} {s t : State} (hi : canStop i = false) (h : exec i s = .next t) :
    t.status = s.status := by
  cases i with
  | ret | halt | call | drw | illegal88toB | illegal8CtoD | illegal8F | illegalEF => cases hi
  | seImm | sneImm | seReg | sneReg =>
    cases h
    exact State.skipIf_status s _
  | _ =>
    cases h
    rfl

theorem execCall_status {nnn : Addr12} {s t : State} (hsp : s.sp.val ≠ 16) (h : exec (.call nnn) s = .next t) :
    t.status = s.status := by
  have hlt : s.sp.val < 16 := by have := s.sp.isLt; omega
  rw [execCall_of_lt hlt] at h
  cases h
  rfl

theorem execRet_status {b : Nibble} {s t : State} (hsp : s.sp.val ≠ 0) (h : exec (.ret b) s = .next t) :
    t.status = s.status := by
  obtain ⟨k, hk⟩ := Nat.exists_eq_succ_of_ne_zero hsp
  rw [execRet_of_pos hk (by have := s.sp.isLt; omega)] at h
  cases h
  rfl

theorem execDrw_status {x y : Reg} {n : Nibble} {s t : State} (hread : (drawOperands x y n s).readsOutOfRange = false)
    (hgrid : (drawOperands x y n s).drawsOutOfRange = false) (h : exec (.drw x y n) s = .next t) :
    t.status = s.status := by
  rw [execDrw_inRange hread hgrid] at h
  cases h
  exact drawOnto_status _ _ s

theorem raiseHere_status {r : FaultReason} {i : Instr} {s t : State} (h : raiseHere r i s = .next t) :
    t.status = .faulted r (s.pc - 2) (some (encode i)) := by
  rw [raiseHere_eq] at h
  cases h
  exact State.stop_status s _

/-- Settles O16: `HALT` and the illegal words always stop, `CALL`, `RET` and `DRW` by their own tests, and the other
forms are those that cannot stop. -/
theorem eachInstructionRaisesOnlyItsOwnStop : Obligations.EachInstructionRaisesOnlyItsOwnStop := by
  intro i s t h
  cases i with
  | halt b nn =>
    rw [exec_halt] at h
    cases h
    exact .inr (.inl ⟨⟨b, nn, rfl⟩, State.stop_status s _⟩)
  | call nnn =>
    by_cases hsp : s.sp.val = 16
    · rw [execCall_full hsp] at h
      exact .inr (.inr ⟨_, _, _, raiseHere_status h, .inl ⟨⟨nnn, rfl⟩, rfl⟩⟩)
    · exact .inl ⟨execCall_status hsp h, nofun, nofun, nofun, nofun, nofun⟩
  | ret b =>
    by_cases hsp : s.sp.val = 0
    · rw [execRet_empty hsp] at h
      exact .inr (.inr ⟨_, _, _, raiseHere_status h, .inr (.inl ⟨⟨b, rfl⟩, rfl⟩)⟩)
    · exact .inl ⟨execRet_status hsp h, nofun, nofun, nofun, nofun, nofun⟩
  | drw x y n =>
    rcases execDrw_cases s x y n with hread | hgrid | ⟨hread, hgrid, -⟩
    · exact .inr (.inr ⟨_, _, _, raiseHere_status (hread.symm.trans h),
        .inr (.inr (.inl ⟨⟨x, y, n, rfl⟩, .inl rfl⟩))⟩)
    · exact .inr (.inr ⟨_, _, _, raiseHere_status (hgrid.symm.trans h),
        .inr (.inr (.inl ⟨⟨x, y, n, rfl⟩, .inr rfl⟩))⟩)
    · exact .inl ⟨execDrw_status hread hgrid h, nofun, nofun, nofun, nofun, nofun⟩
  | illegal88toB xy low =>
    exact .inr (.inr ⟨_, _, _, raiseHere_status h, .inr (.inr (.inr ⟨.inl ⟨xy, low, rfl⟩, rfl⟩))⟩)
  | illegal8CtoD xy low =>
    exact .inr (.inr ⟨_, _, _, raiseHere_status h, .inr (.inr (.inr ⟨.inr (.inl ⟨xy, low, rfl⟩), rfl⟩))⟩)
  | illegal8F xy =>
    exact .inr (.inr ⟨_, _, _, raiseHere_status h, .inr (.inr (.inr ⟨.inr (.inr (.inl ⟨xy, rfl⟩)), rfl⟩))⟩)
  | illegalEF low =>
    exact .inr (.inr ⟨_, _, _, raiseHere_status h, .inr (.inr (.inr ⟨.inr (.inr (.inr ⟨low, rfl⟩)), rfl⟩))⟩)
  | _ => exact .inl ⟨exec_status_of_not_canStop rfl h, nofun, nofun, nofun, nofun, nofun⟩

/-! ## The words that can stop the machine, by their number -/

/-- The words of `RET` (R76). -/
def RetWord (w : Word) : Prop := w.toNat / 4096 = 0 ∧ w.toNat % 256 = 0xEE

theorem opClass_eq {w : Word} {c : Nibble} (h : w.toNat / 4096 = c.toNat) : opClass w = c :=
  BitVec.eq_of_toNat_eq ((opClass_toNat w).trans h)

theorem fieldNN_of_retWord {w : Word} (h : RetWord w) : fieldNN w = retByte :=
  BitVec.eq_of_toNat_eq ((fieldNN_toNat w).trans h.right)

theorem decodeWord_of_retWord {w : Word} (h : RetWord w) : decodeWord w = .ret (bitsX w) :=
  calc decodeWord w
    _ = decodeClass0 w := decodeWord_of_class (opClass_eq (c := 0x0) h.left)
    _ = .ret (bitsX w) := if_pos (fieldNN_of_retWord h)

theorem decodeWord_of_class2 {w : Word} (h : w.toNat / 4096 = 2) : decodeWord w = .call (fieldNNN w) :=
  decodeWord_of_class (opClass_eq (c := 0x2) h)

theorem decodeWord_of_classD {w : Word} (h : w.toNat / 4096 = 13) :
    decodeWord w = .drw (fieldX w) (fieldY w) (fieldN w) :=
  decodeWord_of_class (opClass_eq (c := 0xD) h)

theorem encode_ret_of_retWord {w : Word} (h : RetWord w) : encode (.ret (bitsX w)) = w := by
  have hw : opClass w ++ (bitsX w ++ fieldNN w) = w := by rw [bitsX_append_fieldNN, opClass_append_fieldNNN]
  rw [opClass_eq (c := 0x0) h.left, fieldNN_of_retWord h] at hw
  exact hw

theorem encode_call_of_class2 {w : Word} (h : w.toNat / 4096 = 2) : encode (.call (fieldNNN w)) = w := by
  have hw := opClass_append_fieldNNN w
  rw [opClass_eq (c := 0x2) h] at hw
  exact hw

theorem encode_drw_of_classD {w : Word} (h : w.toNat / 4096 = 13) :
    encode (.drw (fieldX w) (fieldY w) (fieldN w)) = w := by
  have hw := opClass_append_fieldNNN w
  rw [opClass_eq (c := 0xD) h, ← bitsX_append_fieldNN, ← bitsY_append_fieldN] at hw
  rw [encode, fieldX, fieldY, regBits_regOf, regBits_regOf]
  exact hw

/-- The class-8 words that are not illegal decode to the register ALU (R77). -/
theorem not_canStop_decodeClass8 {w : Word} (h : w.toNat % 16 < 8 ∨ w.toNat % 16 = 14) :
    canStop (decodeClass8 w) = false := by
  rw [← fieldN_toNat] at h
  unfold decodeClass8
  generalize (fieldN w).toNat = n at h
  obtain rfl | rfl | rfl | rfl | rfl | rfl | rfl | rfl | rfl :
    n = 0 ∨ n = 1 ∨ n = 2 ∨ n = 3 ∨ n = 4 ∨ n = 5 ∨ n = 6 ∨ n = 7 ∨ n = 14 := by omega
  all_goals rfl

/-- The words of the classes but 0, 2, 8, D, E and F (R74). -/
theorem not_canStop_decodeWord {w : Word} (hclass : w.toNat / 4096 < 14) (h0 : w.toNat / 4096 ≠ 0)
    (h2 : w.toNat / 4096 ≠ 2) (h8 : w.toNat / 4096 ≠ 8) (hD : w.toNat / 4096 ≠ 13) :
    canStop (decodeWord w) = false := by
  rw [← opClass_toNat] at hclass h0 h2 h8 hD
  unfold decodeWord
  generalize (opClass w).toNat = c at hclass h0 h2 h8 hD
  obtain rfl | rfl | rfl | rfl | rfl | rfl | rfl | rfl | rfl | rfl :
    c = 1 ∨ c = 3 ∨ c = 4 ∨ c = 5 ∨ c = 6 ∨ c = 7 ∨ c = 9 ∨ c = 10 ∨ c = 11 ∨ c = 12 := by omega
  all_goals rfl

/-- Every word is a sentinel, illegal, a `RET`, a `CALL` or a `DRW`, or cannot stop the machine. -/
theorem word_kinds (w : Word) :
    SentinelWord w ∨ IllegalWord w ∨ RetWord w ∨ w.toNat / 4096 = 2 ∨ w.toNat / 4096 = 13 ∨
      canStop (decodeWord w) = false := by
  by_cases hspecial : SentinelWord w ∨ IllegalWord w ∨ RetWord w ∨ w.toNat / 4096 = 2 ∨ w.toNat / 4096 = 13
  · simpa only [or_assoc] using (Or.inl hspecial : _ ∨ canStop (decodeWord w) = false)
  · unfold SentinelWord IllegalWord RetWord at hspecial
    refine .inr (.inr (.inr (.inr (.inr ?_))))
    by_cases h8 : w.toNat / 4096 = 8
    · have hdec : decodeWord w = decodeClass8 w := decodeWord_of_class (opClass_eq (c := 0x8) h8)
      rw [hdec]
      exact not_canStop_decodeClass8 (by omega)
    · exact not_canStop_decodeWord (by omega) (by omega) (by omega) h8 (by omega)

/-! ## The table of stops (R181, R183) -/

/-- The rows of the sprite `w` draws pass the end of memory (R162). -/
def SpriteReadsOut (s : State) (w : Word) : Prop := 0 < w.toNat % 16 ∧ 4096 < s.i.toNat + w.toNat % 16

/-- The cells of the sprite `w` draws pass the grid (R162). -/
def SpriteDrawsOut (s : State) (w : Word) : Prop :=
  0 < w.toNat % 16 ∧
    (64 < (s.getV (fieldX w)).toNat + 8 * (w.toNat % 16) ∨ 32 < (s.getV (fieldY w)).toNat + w.toNat % 16)

/-- The table of R181, its rows in the order of R183: when a step of the running machine `s` stops with a given
`STATUS`. -/
def StopCondition (s : State) : Status → Prop
  | .running => False
  | .halted .endOfMemory => 4096 ≤ s.pc.toNat
  | .faulted .fetchOutOfRange a v => s.pc.toNat = 4095 ∧ a = 4095 ∧ v = none
  | .halted .unknownMiscOpcode => s.pc.toNat < 4095 ∧ SentinelWord (fetchWord s)
  | .faulted .unimplementedOpcode a v =>
    s.pc.toNat < 4095 ∧ IllegalWord (fetchWord s) ∧ a = s.pc ∧ v = some (fetchWord s)
  | .faulted .stackOverflow a v =>
    s.pc.toNat < 4095 ∧ (fetchWord s).toNat / 4096 = 2 ∧ s.sp.val = 16 ∧ a = s.pc ∧ v = some (fetchWord s)
  | .faulted .stackUnderflow a v =>
    s.pc.toNat < 4095 ∧ (fetchWord s).toNat / 4096 = 0 ∧ (fetchWord s).toNat % 256 = 0xEE ∧ s.sp.val = 0 ∧
      a = s.pc ∧ v = some (fetchWord s)
  | .faulted .spriteReadOutOfRange a v =>
    s.pc.toNat < 4095 ∧ (fetchWord s).toNat / 4096 = 13 ∧ SpriteReadsOut s (fetchWord s) ∧
      a = s.pc ∧ v = some (fetchWord s)
  | .faulted .displayOutOfRange a v =>
    s.pc.toNat < 4095 ∧ (fetchWord s).toNat / 4096 = 13 ∧ ¬ SpriteReadsOut s (fetchWord s) ∧
      SpriteDrawsOut s (fetchWord s) ∧ a = s.pc ∧ v = some (fetchWord s)

/-- The state a step that stops with `st` leaves: `STATUS`, the advance of `PC` if a word was fetched, nothing else
(R184). -/
def State.stoppedWith (s : State) (st : Status) : State :=
  { s with pc := if s.pc.toNat < 4095 then s.pc + 2 else s.pc, status := st }

theorem stop_eq_stoppedWith {s : State} (hpc : ¬ s.pc.toNat < 4095) (st : Status) : s.stop st = s.stoppedWith st := by
  rw [State.stoppedWith, if_neg hpc]
  rfl

theorem advancePC_stop_eq_stoppedWith {s : State} (hpc : s.pc.toNat < 4095) (st : Status) :
    s.advancePC.stop st = s.stoppedWith st := by
  rw [State.stoppedWith, if_pos hpc]
  rfl

theorem unchangedBut_stoppedWith (s : State) (st : Status) : UnchangedBut [.pc, .status] s (s.stoppedWith st) := by
  refine unchangedBut_of fun p => ?_
  cases p <;> simp [SameAt, State.stoppedWith]

/-- The advance of `PC` does not touch what a draw samples. -/
theorem readsOutOfRange_iff_spriteReadsOut (s : State) (w : Word) :
    (drawOperands (fieldX w) (fieldY w) (fieldN w) s.advancePC).readsOutOfRange = true ↔ SpriteReadsOut s w := by
  rw [readsOutOfRange_iff, SpriteReadsOut, ← fieldN_toNat]
  rfl

theorem drawsOutOfRange_iff_spriteDrawsOut (s : State) (w : Word) :
    (drawOperands (fieldX w) (fieldY w) (fieldN w) s.advancePC).drawsOutOfRange = true ↔ SpriteDrawsOut s w := by
  rw [drawsOutOfRange_iff, SpriteDrawsOut, ← fieldN_toNat]
  rfl

/-- A step whose word's rule raises a fault, the word being the encoding of its instruction. -/
theorem step_of_raiseHere {s : State} {i : Instr} {r : FaultReason} (hrun : s.status = .running)
    (hpc : s.pc.toNat < 4095) (hdecode : decodeWord (fetchWord s) = i) (hencode : encode i = fetchWord s)
    (hexec : exec i s.advancePC = raiseHere r i s.advancePC) :
    step s = .next (s.stoppedWith (.faulted r s.pc (some (fetchWord s)))) := by
  have haddr : s.advancePC.pc - 2 = s.pc := fetchedFrom_advancePC s
  rw [step_of_fetch hrun hpc, hdecode, hexec, raiseHere_eq, haddr, hencode, advancePC_stop_eq_stoppedWith hpc]

/-- Where a row of the table holds, the step stops with that row's `STATUS`, one case for each row. -/
theorem step_of_stopCondition {s : State} {st : Status} (hrun : s.status = .running) (h : StopCondition s st) :
    step s = .next (s.stoppedWith st) := by
  match st, h with
  | .halted .endOfMemory, hpc =>
    have hpast : 4096 ≤ s.pc.toNat := hpc
    rw [step_of_endOfMemory hrun hpast, stop_eq_stoppedWith (by omega)]
  | .faulted .fetchOutOfRange _ _, ⟨hpc, rfl, rfl⟩ =>
    have haddr : s.pc = 4095 := BitVec.eq_of_toNat_eq hpc
    rw [step_of_fetchOutOfRange hrun hpc, stop_eq_stoppedWith (by omega), haddr]
  | .halted .unknownMiscOpcode, ⟨hpc, hword⟩ =>
    rw [step_of_fetch hrun hpc, exec_sentinelWord hword, advancePC_stop_eq_stoppedWith hpc]
  | .faulted .unimplementedOpcode _ _, ⟨hpc, hword, rfl, rfl⟩ =>
    rw [step_of_fetch hrun hpc, exec_illegalWord_advancePC hword, advancePC_stop_eq_stoppedWith hpc]
  | .faulted .stackOverflow _ _, ⟨hpc, hword, hsp, rfl, rfl⟩ =>
    exact step_of_raiseHere hrun hpc (decodeWord_of_class2 hword) (encode_call_of_class2 hword)
      (execCall_full (s := s.advancePC) hsp _)
  | .faulted .stackUnderflow _ _, ⟨hpc, hclass, hlow, hsp, rfl, rfl⟩ =>
    have hword : RetWord (fetchWord s) := ⟨hclass, hlow⟩
    exact step_of_raiseHere hrun hpc (decodeWord_of_retWord hword) (encode_ret_of_retWord hword)
      (execRet_empty (s := s.advancePC) hsp _)
  | .faulted .spriteReadOutOfRange _ _, ⟨hpc, hword, hread, rfl, rfl⟩ =>
    exact step_of_raiseHere hrun hpc (decodeWord_of_classD hword) (encode_drw_of_classD hword)
      (execDrw_readsOutOfRange ((readsOutOfRange_iff_spriteReadsOut s _).mpr hread))
  | .faulted .displayOutOfRange _ _, ⟨hpc, hword, hread, hgrid, rfl, rfl⟩ =>
    exact step_of_raiseHere hrun hpc (decodeWord_of_classD hword) (encode_drw_of_classD hword)
      (execDrw_drawsOutOfRange (Bool.eq_false_iff.mpr (mt (readsOutOfRange_iff_spriteReadsOut s _).mp hread))
        ((drawsOutOfRange_iff_spriteDrawsOut s _).mpr hgrid))

/-- Where a word is fetched, some row of the table holds or its rule leaves `STATUS`, one case for each kind of word. -/
theorem stopCondition_or_exec_status {s t : State} (hpc : s.pc.toNat < 4095)
    (h : exec (decodeWord (fetchWord s)) s.advancePC = .next t) :
    (∃ st, StopCondition s st) ∨ t.status = s.status := by
  obtain hword | hword | hword | hword | hword | hword := word_kinds (fetchWord s)
  · exact .inl ⟨.halted .unknownMiscOpcode, hpc, hword⟩
  · exact .inl ⟨.faulted .unimplementedOpcode _ _, hpc, hword, rfl, rfl⟩
  · by_cases hsp : s.sp.val = 0
    · exact .inl ⟨.faulted .stackUnderflow _ _, hpc, hword.left, hword.right, hsp, rfl, rfl⟩
    · rw [decodeWord_of_retWord hword] at h
      exact .inr (execRet_status (s := s.advancePC) hsp h)
  · by_cases hsp : s.sp.val = 16
    · exact .inl ⟨.faulted .stackOverflow _ _, hpc, hword, hsp, rfl, rfl⟩
    · rw [decodeWord_of_class2 hword] at h
      exact .inr (execCall_status (s := s.advancePC) hsp h)
  · by_cases hread : SpriteReadsOut s (fetchWord s)
    · exact .inl ⟨.faulted .spriteReadOutOfRange _ _, hpc, hword, hread, rfl, rfl⟩
    by_cases hgrid : SpriteDrawsOut s (fetchWord s)
    · exact .inl ⟨.faulted .displayOutOfRange _ _, hpc, hword, hread, hgrid, rfl, rfl⟩
    · rw [decodeWord_of_classD hword] at h
      rw [← readsOutOfRange_iff_spriteReadsOut, ← Ne, ← Bool.eq_false_iff] at hread
      rw [← drawsOutOfRange_iff_spriteDrawsOut, ← Ne, ← Bool.eq_false_iff] at hgrid
      exact .inr (execDrw_status (s := s.advancePC) hread hgrid h)
  · exact .inr (exec_status_of_not_canStop (s := s.advancePC) hword h)

/-- A step stops only where some row of the table holds. -/
theorem stopCondition_or_running {s t : State} (h : step s = .next t) :
    (∃ st, StopCondition s st) ∨ t.status = .running := by
  obtain ⟨hrun, ⟨hpc, -⟩ | ⟨hpc, -⟩ | ⟨hpc, hexec⟩⟩ := step_cases h
  · exact .inl ⟨.halted .endOfMemory, hpc⟩
  · exact .inl ⟨.faulted .fetchOutOfRange _ _, hpc, rfl, rfl⟩
  · exact (stopCondition_or_exec_status hpc hexec).imp_right fun hstatus => hstatus.trans hrun

/-- A step that stops does so by the row of the `STATUS` it leaves. -/
theorem stopCondition_of_step {s t : State} (h : step s = .next t) (hstop : t.status ≠ .running) :
    StopCondition s t.status ∧ t = s.stoppedWith t.status := by
  obtain ⟨hrun, -⟩ := step_cases h
  obtain ⟨st, hst⟩ := (stopCondition_or_running h).resolve_right hstop
  cases h.symm.trans (step_of_stopCondition hrun hst)
  exact ⟨hst, rfl⟩

/-- A step stops with a given `STATUS` exactly when its row of the table holds: no two rows hold at once. -/
theorem step_status_eq_iff {s t : State} (h : step s = .next t) {st : Status} (hst : st ≠ .running) :
    t.status = st ↔ StopCondition s st := by
  constructor
  · rintro rfl
    obtain ⟨hrow, -⟩ := stopCondition_of_step h hst
    exact hrow
  · intro hrow
    obtain ⟨hrun, -⟩ := step_cases h
    cases h.symm.trans (step_of_stopCondition hrun hrow)
    rfl

/-- Settles O14: a step that stops leaves the state R184 describes. -/
theorem stopsArePrecise : Obligations.StopsArePrecise := by
  intro s t h hstop
  obtain ⟨-, ht⟩ := stopCondition_of_step h hstop
  rw [ht]
  exact ⟨unchangedBut_stoppedWith s _, rfl, rfl⟩

/-- Settles O15: each clause is one row of the table, and the last is the `PC` of the stopped state. -/
theorem eachStopHasItsCondition : Obligations.EachStopHasItsCondition := by
  intro s t _ h
  refine ⟨step_status_eq_iff h nofun, step_status_eq_iff h nofun, fun _ _ => step_status_eq_iff h nofun,
    fun _ _ => step_status_eq_iff h nofun, fun _ _ => step_status_eq_iff h nofun, fun _ _ => step_status_eq_iff h nofun,
    fun _ _ => step_status_eq_iff h nofun, fun _ _ => step_status_eq_iff h nofun, fun hstop => ?pc⟩
  case pc =>
    obtain ⟨-, ht⟩ := stopCondition_of_step h hstop
    rw [ht]
    rfl

end Sys2Proof.Machine
end

section
/-! Reset, launch and what holds along a run (R210, R214, R219, R221). A launch state in canonical form is what Load makes
of the reset state; a running machine has one next state; each instruction keeps the bounds on `PC`, `I` and the call
stack, and the table of stops gives the stop record, so a run from a launch state keeps the invariants. -/

namespace Sys2Proof.Machine

/-! ## Reset (R210) -/

theorem State.resetWith_getV (sd : Seed) (r : Reg) : (State.resetWith sd).getV r = 0 := Vector.getElem_replicate r.isLt

theorem State.resetWith_stack (sd : Seed) (k : Nat) (hk : k < 16) : (State.resetWith sd).stack[k] = 0 :=
  Vector.getElem_replicate hk

theorem State.resetWith_display_read (sd : Seed) (x y : Nat) (hx : x < 64) (hy : y < 32) :
    (State.resetWith sd).display.read x y = false := by
  have hcolumn : (State.resetWith sd).display[x] = Vector.replicate 32 false := Vector.getElem_replicate hx
  rw [Display.read_of_lt _ hx hy, hcolumn, Vector.getElem_replicate]

/-- Settles O45: registers, stack and display are replicated values, memory lists no cell, and the other items are as
written. -/
theorem resetSetsEveryItem : Obligations.ResetSetsEveryItem :=
  ⟨rfl, fun _ sd => ⟨Memory.read_nil, State.resetWith_getV sd, rfl, rfl, State.resetWith_stack sd, rfl, rfl,
    State.resetWith_display_read sd, rfl⟩⟩

/-! ## The launch state (R214) -/

/-- Everything an accepted Load requires and does (R59). -/
theorem HostSession.load_cases {h h' : HostSession} {buf : List Byte} (hload : h.load buf = some h') :
    (h.phase = .fresh ∧ h.core.status = .running ∧ buf.length ≤ 3584) ∧
      h' = { core := h.core.loadBytes buf, phase := .loaded } := by
  unfold HostSession.load at hload
  split at hload
  · next haccepted =>
    cases hload
    exact ⟨haccepted, rfl⟩
  · cases hload

/-- Inside a copied buffer memory reads the buffer's bytes (R59). -/
theorem Memory.read_writeBytes_inside {m : Memory} (hm : m.wf) {a : Nat} {bs : List Byte}
    (hfit : a + bs.length ≤ Config.memSize) (j : Nat) (hj : j < bs.length) :
    (m.writeBytes a bs).read (a + j) = bs[j] := by
  have hin : a ≤ a + j ∧ a + j - a < bs.length := by omega
  rw [Memory.read_writeBytes hm hfit, dif_pos hin]
  simp only [Nat.add_sub_cancel_left]

/-- Outside a copied buffer memory reads as before (R59). -/
theorem Memory.read_writeBytes_outside {m : Memory} (hm : m.wf) {a : Nat} {bs : List Byte}
    (hfit : a + bs.length ≤ Config.memSize) (c : Nat) (hc : c < a ∨ a + bs.length ≤ c) :
    (m.writeBytes a bs).read c = m.read c := by
  have hout : ¬ (a ≤ c ∧ c - a < bs.length) := by omega
  rw [Memory.read_writeBytes hm hfit, dif_neg hout]

theorem launchState_resetWith_loadBytes (sd : Seed) {buf : List Byte} (hlen : buf.length ≤ 3584) :
    LaunchState buf sd ((State.resetWith sd).loadBytes buf) :=
  have hfit : Config.progBase + buf.length ≤ Config.memSize := Nat.add_le_add_left hlen Config.progBase
  { running := rfl
    pc := rfl
    sp := rfl
    i := rfl
    v := State.resetWith_getV sd
    stack := State.resetWith_stack sd
    display := State.resetWith_display_read sd
    seed := rfl
    program := Memory.read_writeBytes_inside Memory.wf_nil hfit
    rest := Memory.read_writeBytes_outside Memory.wf_nil hfit }

/-- Every byte of a launch state is given by the program. -/
theorem LaunchState.read_eq_read {buf : List Byte} {sd : Seed} {s t : State} (hs : LaunchState buf sd s)
    (ht : LaunchState buf sd t) (a : Nat) : s.mem.read a = t.mem.read a := by
  by_cases hout : a < 0x200 ∨ 0x200 + buf.length ≤ a
  · rw [hs.rest a hout, ht.rest a hout]
  · obtain ⟨j, rfl⟩ := Nat.exists_eq_add_of_le (show 0x200 ≤ a by omega)
    have hj : j < buf.length := by omega
    rw [hs.program j hj, ht.program j hj]

/-- Two states with the same nine items are equal (R20). -/
theorem State.eq_of_items {s t : State} (hmem : s.mem = t.mem) (hv : s.v = t.v) (hi : s.i = t.i) (hpc : s.pc = t.pc)
    (hstack : s.stack = t.stack) (hsp : s.sp = t.sp) (hseed : s.seed = t.seed) (hdisplay : s.display = t.display)
    (hstatus : s.status = t.status) : s = t := by
  cases s
  cases t
  congr

/-- The launch predicate gives every item, so canonical memory leaves one state. -/
theorem LaunchState.eq_of_wf {buf : List Byte} {sd : Seed} {s t : State} (hs : LaunchState buf sd s)
    (ht : LaunchState buf sd t) (hwfs : s.mem.wf) (hwft : t.mem.wf) : s = t := by
  refine State.eq_of_items (Memory.ext_of_wf hwfs hwft (hs.read_eq_read ht)) (Vector.ext fun k hk => ?v)
    (hs.i.trans ht.i.symm) (hs.pc.trans ht.pc.symm) (Vector.ext fun k hk => ?stack) (hs.sp.trans ht.sp.symm)
    (hs.seed.trans ht.seed.symm) (Display.ext_of_read fun x y hx hy => ?display) (hs.running.trans ht.running.symm)
  case v => exact (hs.v ⟨k, hk⟩).trans (ht.v ⟨k, hk⟩).symm
  case stack => exact (hs.stack k hk).trans (ht.stack k hk).symm
  case display => exact (hs.display x y hx hy).trans (ht.display x y hx hy).symm

/-- Settles O47: Load leaves the reset state with the buffer copied, a launch state in canonical form. -/
theorem launchStateIsResetThenLoad : Obligations.LaunchStateIsResetThenLoad := by
  intro h h' sd buf hload
  obtain ⟨⟨-, -, hlen⟩, rfl⟩ := HostSession.load_cases hload
  have hlaunch := launchState_resetWith_loadBytes sd hlen
  exact ⟨hlaunch, fun s hwf hs => hs.eq_of_wf hlaunch hwf (Memory.writeBytes_wf Memory.wf_nil Config.progBase buf)⟩

/-! ## A running machine always steps (R219) -/

/-- One case for each way `PC` can lie (R91, R92, R95). -/
theorem step_next_of_running {s : State} (hrun : s.status = .running) : ∃ t, step s = .next t := by
  rcases Nat.lt_trichotomy s.pc.toNat 4095 with hfetch | hlast | hpast
  · obtain ⟨t, ht⟩ := exec_next (decodeWord (fetchWord s)) s.advancePC
    exact ⟨t, (step_of_fetch hrun hfetch).trans ht⟩
  · exact ⟨_, step_of_fetchOutOfRange hrun hlast⟩
  · exact ⟨_, step_of_endOfMemory hrun hpast⟩

/-- Settles O8: `step` is a function, so the next state it answers is the only one. -/
theorem runningMachineAlwaysHasOneStep : Obligations.RunningMachineAlwaysHasOneStep := by
  refine fun s => ⟨fun hrun => ?one, fun hstopped t ht => hstopped (step_cases ht).left⟩
  case one =>
    obtain ⟨t, ht⟩ := step_next_of_running hrun
    exact ⟨t, ht, fun u hu => Host.Outcome.next.inj (hu.symm.trans ht)⟩

/-! ## The call stack's bounds (R221 (c)) -/

/-- Slots from `SP` on are zero, and no slot holds more than 0x1000. -/
structure StackBounded (stack : Vector Word 16) (sp : Nat) : Prop where
  free : ∀ k (h : k < 16), sp ≤ k → stack[k] = 0
  used : ∀ k (h : k < 16), stack[k].toNat ≤ 0x1000

theorem StackBounded.push {stack : Vector Word 16} {sp : Nat} (h : StackBounded stack sp) (hsp : sp < 16) {w : Word}
    (hw : w.toNat ≤ 0x1000) : StackBounded (stack.set sp w hsp) (sp + 1) where
  free k hk hle := by
    rw [Vector.getElem_set_ne hsp hk (by omega)]
    exact h.free k hk (by omega)
  used k hk := by
    rw [Vector.getElem_set]
    split
    · exact hw
    · exact h.used k hk

theorem StackBounded.pop {stack : Vector Word 16} {k : Nat} (h : StackBounded stack (k + 1)) (hk : k < 16) :
    StackBounded (stack.set k 0 hk) k where
  free j hj hle := by
    rw [Vector.getElem_set]
    split
    · rfl
    · exact h.free j hj (by omega)
  used j hj := by
    rw [Vector.getElem_set]
    split
    · decide
    · exact h.used j hj

/-! ## The bounds of one instruction (R221 (c) to (e)) -/

/-- The invariants of R221 that speak of `PC`, `I` and the call stack alone. -/
structure WithinBounds (s : State) : Prop where
  stack : StackBounded s.stack s.sp.val
  pc : s.pc.toNat ≤ 0x10FE
  i : s.i.toNat ≤ 0x0FFF

theorem WithinBounds.congr {s t : State} (h : WithinBounds s) (hstack : t.stack = s.stack) (hsp : t.sp = s.sp)
    (hpc : t.pc = s.pc) (hi : t.i = s.i) : WithinBounds t where
  stack := by rw [hstack, hsp]; exact h.stack
  pc := by rw [hpc]; exact h.pc
  i := by rw [hi]; exact h.i

theorem WithinBounds.of_unchangedBut {s t : State} (h : WithinBounds s)
    (hframe : UnchangedBut [.mem, .v, .seed, .display, .status] s t) : WithinBounds t :=
  h.congr (hframe .stack (by decide)) (hframe .sp (by decide)) (hframe .pc (by decide)) (hframe .i (by decide))

theorem WithinBounds.setPC {s : State} (h : WithinBounds s) {w : Word} (hw : w.toNat ≤ 0x10FE) :
    WithinBounds (s.setPC w) where
  stack := h.stack
  pc := hw
  i := h.i

theorem WithinBounds.setI {s : State} (h : WithinBounds s) {w : Word} (hw : w.toNat ≤ 0x0FFF) :
    WithinBounds (s.setI w) where
  stack := h.stack
  pc := h.pc
  i := hw

theorem immAddr_toNat_le (nnn : Addr12) : (immAddr nnn).toNat ≤ 0x0FFF := by
  have hlt := nnn.isLt
  rw [immAddr_toNat]
  omega

theorem offsetTarget_toNat_le (nnn : Addr12) (s : State) : (offsetTarget nnn s).toNat ≤ 0x10FE := by
  have hlt := nnn.isLt
  have hv := (s.getV 0).isLt
  rw [offsetTarget_toNat]
  omega

/-- A skip from an advanced `PC` stays far below 0x10FE (R138). -/
theorem WithinBounds.skipIf {s : State} (h : WithinBounds s) (hpc : s.pc.toNat ≤ 0x1000) (c : Bool) :
    WithinBounds (s.skipIf c) := by
  rw [State.skipIf_eq]
  refine h.setPC ?_
  have h2 : (2 : Word).toNat = 2 := rfl
  split
  · rw [BitVec.toNat_add, h2]
    omega
  · omega

/-- A call pushes the advanced `PC`, at most 0x1000 (R131). -/
theorem execCall_withinBounds {s t : State} (h : WithinBounds s) (hpc : s.pc.toNat ≤ 0x1000) {nnn : Addr12}
    (hexec : exec (.call nnn) s = .next t) : WithinBounds t := by
  by_cases hsp : s.sp.val < 16
  · rw [execCall_of_lt hsp] at hexec
    cases hexec
    exact ⟨h.stack.push hsp hpc, Nat.le_trans (immAddr_toNat_le nnn) (by decide), h.i⟩
  · rw [execCall_full (by have := s.sp.isLt; omega)] at hexec
    exact h.of_unchangedBut ((raiseHere_unchangedBut hexec).mono (by decide))

/-- A return takes its target from a slot (R132). -/
theorem execRet_withinBounds {s t : State} (h : WithinBounds s) {b : Nibble} (hexec : exec (.ret b) s = .next t) :
    WithinBounds t := by
  cases hsp : s.sp.val with
  | zero =>
    rw [execRet_empty hsp] at hexec
    exact h.of_unchangedBut ((raiseHere_unchangedBut hexec).mono (by decide))
  | succ k =>
    have hk : k < 16 := by have := s.sp.isLt; omega
    have hstack := h.stack
    rw [hsp] at hstack
    rw [execRet_of_pos hsp hk] at hexec
    cases hexec
    exact ⟨hstack.pop hk, Nat.le_trans (hstack.used k hk) (by decide), h.i⟩

/-- Every instruction, entered at an advanced `PC`, keeps the bounds: the writers of `PC`, `I` and the stack by the value
each writes, the others because they leave all three alone (R35). -/
theorem exec_withinBounds {i : Instr} {s t : State} (h : WithinBounds s) (hpc : s.pc.toNat ≤ 0x1000)
    (hexec : exec i s = .next t) : WithinBounds t := by
  cases i with
  | jp nnn =>
    cases hexec
    exact h.setPC (Nat.le_trans (immAddr_toNat_le nnn) (by decide))
  | jpV0 nnn =>
    cases hexec
    exact h.setPC (offsetTarget_toNat_le nnn s)
  | ldI nnn =>
    cases hexec
    exact h.setI (immAddr_toNat_le nnn)
  | seImm | sneImm | seReg | sneReg =>
    cases hexec
    exact h.skipIf hpc _
  | call nnn => exact execCall_withinBounds h hpc hexec
  | ret b => exact execRet_withinBounds h hexec
  | drw x y n => exact h.of_unchangedBut ((execDrw_unchangedBut hexec).mono (by decide))
  | _ =>
    cases hexec
    exact h.congr rfl rfl rfl rfl

/-- A step keeps the bounds: before the fetch it stops and moves nothing, after it the advanced `PC` is at most 0x1000. -/
theorem step_withinBounds {s t : State} (h : WithinBounds s) (hstep : step s = .next t) : WithinBounds t := by
  obtain ⟨-, ⟨-, rfl⟩ | ⟨-, rfl⟩ | ⟨hfetch, hexec⟩⟩ := step_cases hstep
  · exact h.congr rfl rfl rfl rfl
  · exact h.congr rfl rfl rfl rfl
  · have hpc : s.advancePC.pc.toNat ≤ 0x1000 := by
      rw [advancePC_toNat hfetch]
      omega
    exact exec_withinBounds (h.setPC (Nat.le_trans hpc (by decide))) hpc hexec

/-! ## The stop record (R221 (h)) -/

theorem stopRecord_of_running {s : State} (hrun : s.status = .running) : StopRecord s := by
  rw [StopRecord, hrun]
  trivial

/-- The `PC` a stop after the fetch leaves, as a number. -/
theorem stoppedWith_pc_toNat {s : State} (hfetch : s.pc.toNat < 4095) (st : Status) :
    (s.stoppedWith st).pc.toNat = s.pc.toNat + 2 := by
  rw [← advancePC_stop_eq_stoppedWith hfetch]
  exact advancePC_toNat hfetch

/-- A stop before the fetch leaves `PC` (R91, R92). -/
theorem stoppedWith_pc_of_not_fetch {s : State} (hpc : ¬ s.pc.toNat < 4095) (st : Status) :
    (s.stoppedWith st).pc = s.pc :=
  if_neg hpc

/-- A fault after the fetch records the word fetched and its address. -/
theorem stopRecord_faulted_fetchWord {s : State} (hfetch : s.pc.toNat < 4095) {r : FaultReason}
    (hr : r ≠ .fetchOutOfRange) : StopRecord (s.stoppedWith (.faulted r s.pc (some (fetchWord s)))) := by
  cases r with
  | fetchOutOfRange => exact absurd rfl hr
  | _ => exact ⟨rfl, stoppedWith_pc_toNat hfetch _⟩

/-- Each row of the table of stops leaves a record that agrees with memory and `PC`. -/
theorem stopRecord_of_stopCondition {s : State} {st : Status} (h : StopCondition s st) :
    StopRecord (s.stoppedWith st) := by
  match st, h with
  | .halted .endOfMemory, hpast =>
    have hpc : 4096 ≤ s.pc.toNat := hpast
    show 4096 ≤ (s.stoppedWith _).pc.toNat
    rw [stoppedWith_pc_of_not_fetch (by omega)]
    exact hpc
  | .faulted .fetchOutOfRange _ _, ⟨hlast, rfl, rfl⟩ =>
    refine ⟨rfl, rfl, ?_⟩
    rw [stoppedWith_pc_of_not_fetch (by omega)]
    exact hlast
  | .halted .unknownMiscOpcode, ⟨hfetch, hword⟩ =>
    show SentinelWord (s.mem.readWord ((s.stoppedWith _).pc.toNat - 2)) ∧ 2 ≤ (s.stoppedWith _).pc.toNat
    rw [stoppedWith_pc_toNat hfetch]
    exact ⟨hword, by omega⟩
  | .faulted .unimplementedOpcode _ _, ⟨hfetch, _, rfl, rfl⟩ => exact stopRecord_faulted_fetchWord hfetch nofun
  | .faulted .stackOverflow _ _, ⟨hfetch, _, _, rfl, rfl⟩ => exact stopRecord_faulted_fetchWord hfetch nofun
  | .faulted .stackUnderflow _ _, ⟨hfetch, _, _, _, rfl, rfl⟩ => exact stopRecord_faulted_fetchWord hfetch nofun
  | .faulted .spriteReadOutOfRange _ _, ⟨hfetch, _, _, rfl, rfl⟩ => exact stopRecord_faulted_fetchWord hfetch nofun
  | .faulted .displayOutOfRange _ _, ⟨hfetch, _, _, _, rfl, rfl⟩ => exact stopRecord_faulted_fetchWord hfetch nofun

theorem step_stopRecord {s t : State} (h : step s = .next t) : StopRecord t := by
  by_cases hrun : t.status = .running
  · exact stopRecord_of_running hrun
  · obtain ⟨hrow, ht⟩ := stopCondition_of_step h hrun
    rw [ht]
    exact stopRecord_of_stopCondition hrow

/-! ## The invariants along a run (R221) -/

theorem Inv.withinBounds {s : State} (h : Inv s) : WithinBounds s where
  stack := ⟨h.freeSlotsZero, h.usedSlotsBounded⟩
  pc := h.pcBounded
  i := h.indexBounded

theorem WithinBounds.inv {s : State} (h : WithinBounds s) (hwf : s.mem.wf) (hlow : ∀ a, a < 0x200 → s.mem.read a = 0)
    (hstop : StopRecord s) : Inv s where
  memWf := hwf
  lowMemoryZero := hlow
  freeSlotsZero := h.stack.free
  usedSlotsBounded := h.stack.used
  pcBounded := h.pc
  indexBounded := h.i
  stopRecord := hstop

/-- Every step keeps the invariants: memory is not written, the bounds are kept, a stop's record is the table's. -/
theorem step_inv {s t : State} (h : Inv s) (hstep : step s = .next t) : Inv t := by
  have hmem : t.mem = s.mem := step_mem hstep
  refine (step_withinBounds h.withinBounds hstep).inv ?wf ?low (step_stopRecord hstep)
  case wf =>
    rw [hmem]
    exact h.memWf
  case low =>
    rw [hmem]
    exact h.lowMemoryZero

theorem run_inv {s : State} (h : Inv s) (k : Nat) : Inv (run k s) := run_keeps (P := Inv) (fun _ _ => step_inv) k h

theorem LaunchState.withinBounds {buf : List Byte} {sd : Seed} {s : State} (h : LaunchState buf sd s) :
    WithinBounds s where
  stack := ⟨fun k hk _ => h.stack k hk, fun k hk => by rw [h.stack k hk]; decide⟩
  pc := by rw [h.pc]; decide
  i := by rw [h.i]; decide

theorem LaunchState.inv {buf : List Byte} {sd : Seed} {s : State} (h : LaunchState buf sd s) (hwf : s.mem.wf) : Inv s :=
  h.withinBounds.inv hwf (fun a ha => h.rest a (.inl ha)) (stopRecord_of_running h.running)

/-- Settles O51: a launch state meets the invariants, a run keeps them and writes no memory, and the seed counts the `RND`
executed. -/
theorem everyRunKeepsTheInvariants : Obligations.EveryRunKeepsTheInvariants := by
  intro buf sd s k _ hwf hlaunch
  have hseed : (run k s).seed = reseedTimes (rndCount k s) sd := (run_seed k s).trans (by rw [hlaunch.seed])
  exact ⟨run_mem k s, Nat.le_of_lt_succ (run k s).sp.isLt, run_inv (hlaunch.inv hwf) k, hseed⟩

end Sys2Proof.Machine
end

section
/-! Encoding and decoding (R70 to R83): decoding undoes encoding, every word is an encoding, so encoding undoes decoding;
and the opcode table, in which only the row of `RET` has priority over a row that overlaps it. -/

namespace Sys2Proof

/-! ## Decoding an assembled word, by operand shape (R72, R74) -/

theorem decodeWord_append_addr {c : Nibble} {form : Addr12 → Instr}
    (hform : ∀ w, opClass w = c → decodeWord w = form (fieldNNN w)) (nnn : Addr12) :
    decodeWord (c ++ nnn) = form nnn := by
  rw [hform _ (opClass_append c nnn), fieldNNN_append]

theorem decodeWord_append_reg_byte {c : Nibble} {form : Reg → Byte → Instr}
    (hform : ∀ w, opClass w = c → decodeWord w = form (fieldX w) (fieldNN w)) (x : Reg) (nn : Byte) :
    decodeWord (c ++ (regBits x ++ nn)) = form x nn := by
  rw [hform _ (opClass_append_nibble_byte c _ nn), fieldX, bitsX_append, regOf_regBits, fieldNN_append]

theorem decodeWord_append_reg_reg_nibble {c : Nibble} {form : Reg → Reg → Nibble → Instr}
    (hform : ∀ w, opClass w = c → decodeWord w = form (fieldX w) (fieldY w) (fieldN w)) (x y : Reg) (n : Nibble) :
    decodeWord (c ++ (regBits x ++ (regBits y ++ n))) = form x y n := by
  rw [hform _ (opClass_append_nibbles c _ _ n), fieldX, bitsX_append_nibbles, fieldY, bitsY_append, fieldN_append,
    regOf_regBits, regOf_regBits]

/-- Class 8 with register operands: the sub-selector names the form (R77). -/
theorem decodeWord_append_class8 (sel : Nibble) {form : Reg → Reg → Instr}
    (hform : ∀ w, fieldN w = sel → decodeClass8 w = form (fieldX w) (fieldY w)) (x y : Reg) :
    decodeWord (0x8#4 ++ (regBits x ++ (regBits y ++ sel))) = form x y := by
  have hclass := decodeWord_of_class (opClass_append_nibbles 0x8#4 (regBits x) (regBits y) sel)
  refine hclass.trans ((hform _ (fieldN_append _ _ _ sel)).trans ?_)
  rw [fieldX, bitsX_append_nibbles, fieldY, bitsY_append, regOf_regBits, regOf_regBits]

theorem decodeWord_append_class8_byte_nibble (xy : Byte) (sel : Nibble) :
    decodeWord (0x8#4 ++ (xy ++ sel)) = decodeClass8 (0x8#4 ++ (xy ++ sel)) :=
  decodeWord_of_class (opClass_append_byte_nibble 0x8#4 xy sel)

theorem decodeWord_encode_illegal88toB (xy : Byte) (low : BitVec 2) :
    decodeWord (encode (.illegal88toB xy low)) = .illegal88toB xy low := by
  have hrange : ∀ b : BitVec 2, 8 ≤ (0b10#2 ++ b).toNat ∧ (0b10#2 ++ b).toNat < 12 := by decide
  have hsel : fieldN (0x8#4 ++ (xy ++ (0b10#2 ++ low))) = 0b10#2 ++ low := fieldN_append_byte_nibble 0x8#4 xy _
  obtain ⟨h8, hB⟩ := hrange low
  rw [← hsel] at h8 hB
  rw [encode, decodeWord_append_class8_byte_nibble, decodeClass8_of_8toB h8 hB, bitsXY_append,
    ← extractLsb'_fieldN _ (by decide), hsel, BitVec.extractLsb'_append_eq_of_add_le (by decide),
    BitVec.extractLsb'_eq_self]

theorem decodeWord_encode_illegal8CtoD (xy : Byte) (low : BitVec 1) :
    decodeWord (encode (.illegal8CtoD xy low)) = .illegal8CtoD xy low := by
  have hrange : ∀ b : BitVec 1, 12 ≤ (0b110#3 ++ b).toNat ∧ (0b110#3 ++ b).toNat < 14 := by decide
  have hsel : fieldN (0x8#4 ++ (xy ++ (0b110#3 ++ low))) = 0b110#3 ++ low := fieldN_append_byte_nibble 0x8#4 xy _
  obtain ⟨hC, hD⟩ := hrange low
  rw [← hsel] at hC hD
  rw [encode, decodeWord_append_class8_byte_nibble, decodeClass8_of_CtoD hC hD, bitsXY_append,
    ← extractLsb'_fieldN _ (by decide), hsel, BitVec.extractLsb'_append_eq_of_add_le (by decide),
    BitVec.extractLsb'_eq_self]

theorem decodeWord_encode_illegal8F (xy : Byte) : decodeWord (encode (.illegal8F xy)) = .illegal8F xy := by
  have hrow := decodeClass8_of_selector (fieldN_append_byte_nibble 0x8#4 xy 0xF#4)
  exact (decodeWord_append_class8_byte_nibble xy 0xF#4).trans
    (hrow.trans (congrArg Instr.illegal8F (bitsXY_append 0x8#4 xy 0xF#4)))

theorem decodeWord_encode_illegalEF (low : BitVec 13) : decodeWord (encode (.illegalEF low)) = .illegalEF low := by
  have hclass : 14 ≤ (opClass (0b111#3 ++ low)).toNat := by
    have hlow := low.isLt
    rw [opClass_toNat, BitVec.toNat_append, ← Nat.shiftLeft_add_eq_or_of_lt hlow, Nat.shiftLeft_eq,
      show (0b111#3).toNat = 7 from rfl]
    omega
  rw [encode, decodeWord_of_classEF hclass, BitVec.extractLsb'_append_eq_of_add_le (by decide),
    BitVec.extractLsb'_eq_self]

/-- A `HALT` whose low byte is not that of a `RET` (R76). -/
theorem decodeWord_encode_halt (b : Nibble) {nn : Byte} (hnn : nn ≠ retByte) :
    decodeWord (encode (.halt b nn)) = .halt b nn := by
  have hclass := decodeWord_of_class (opClass_append_nibble_byte 0x0#4 b nn)
  refine hclass.trans ?_
  show decodeClass0 (0x0#4 ++ (b ++ nn)) = _
  rw [decodeClass0, fieldNN_append, if_neg hnn, bitsX_append]

theorem decodeWord_encode_ret (b : Nibble) : decodeWord (encode (.ret b)) = .ret b := by
  have hclass := decodeWord_of_class (opClass_append_nibble_byte 0x0#4 b retByte)
  refine hclass.trans ?_
  show decodeClass0 (0x0#4 ++ (b ++ retByte)) = _
  rw [decodeClass0, fieldNN_append, if_pos rfl, bitsX_append]

/-- Decoding undoes encoding: each form by the shape of its operands. -/
theorem decodeWord_encode {i : Instr} (hwf : i.wellFormed = true) : decodeWord (encode i) = i := by
  cases i with
  | ret b => exact decodeWord_encode_ret b
  | halt b nn => exact decodeWord_encode_halt b (bne_iff_ne.mp hwf)
  | jp | call | ldI | jpV0 => exact decodeWord_append_addr (fun _ h => decodeWord_of_class h) _
  | seImm | sneImm | ldImm | addImm | rnd => exact decodeWord_append_reg_byte (fun _ h => decodeWord_of_class h) _ _
  | seReg | sneReg | drw => exact decodeWord_append_reg_reg_nibble (fun _ h => decodeWord_of_class h) _ _ _
  | ldReg | orReg | andReg | xorReg | addReg | subReg | shrReg | subnReg | shlReg =>
    exact decodeWord_append_class8 _ (fun _ h => decodeClass8_of_selector h) _ _
  | illegal88toB xy low => exact decodeWord_encode_illegal88toB xy low
  | illegal8CtoD xy low => exact decodeWord_encode_illegal8CtoD xy low
  | illegal8F xy => exact decodeWord_encode_illegal8F xy
  | illegalEF low => exact decodeWord_encode_illegalEF low

/-- The bytes of an instruction decode as its word, with the bytes after them left over (R53, R70). -/
theorem decodeBytes_encodeBytes_append (i : Instr) (rest : List Byte) :
    decodeBytes (encodeBytes i ++ rest) = .ok (decodeWord (encode i), rest) := by
  show Except.ok (decodeWord (wordOfBytes _ _), rest) = _
  rw [wordOfBytes_bytes]

/-- Settles O4: the word by the shape of its operands, the bytes through the word they form. -/
theorem decodeOfEncodeIsIdentity : Obligations.DecodeOfEncodeIsIdentity := by
  intro i hwf
  refine ⟨decodeWord_encode hwf, fun rest => ?bytes⟩
  case bytes => rw [decodeBytes_encodeBytes_append, decodeWord_encode hwf]

/-! ## Every word is the encoding of a well-formed instruction (R83) -/

theorem append_fieldNNN {w : Word} {c : Nibble} (h : opClass w = c) : c ++ fieldNNN w = w := by
  rw [← h]
  exact opClass_append_fieldNNN w

theorem append_fieldX_fieldNN {w : Word} {c : Nibble} (h : opClass w = c) :
    c ++ (regBits (fieldX w) ++ fieldNN w) = w := by
  rw [fieldX, regBits_regOf, bitsX_append_fieldNN]
  exact append_fieldNNN h

theorem append_fieldX_fieldY_fieldN {w : Word} {c : Nibble} (h : opClass w = c) :
    c ++ (regBits (fieldX w) ++ (regBits (fieldY w) ++ fieldN w)) = w := by
  rw [fieldY, regBits_regOf, bitsY_append_fieldN]
  exact append_fieldX_fieldNN h

theorem append_fieldX_fieldY_sel {w : Word} {c sel : Nibble} (h : opClass w = c) (hsel : fieldN w = sel) :
    c ++ (regBits (fieldX w) ++ (regBits (fieldY w) ++ sel)) = w := by
  rw [← hsel]
  exact append_fieldX_fieldY_fieldN h

/-- The word `w` is the encoding of some well-formed instruction. -/
def HasInstr (w : Word) : Prop := ∃ i : Instr, i.wellFormed = true ∧ encode i = w

theorem hasInstr_of_class0 {w : Word} (h : opClass w = 0x0) : HasInstr w := by
  have hw := append_fieldNNN h
  rw [← bitsX_append_fieldNN] at hw
  by_cases hret : fieldNN w = retByte
  · rw [hret] at hw
    exact ⟨.ret (bitsX w), rfl, hw⟩
  · exact ⟨.halt (bitsX w) (fieldNN w), bne_iff_ne.mpr hret, hw⟩

/-- The sub-selectors of class 8 (R77, R79): nine of the register ALU and three rows of illegal words. -/
theorem class8_selector_cases (n : Nibble) :
    n = 0x0 ∨ n = 0x1 ∨ n = 0x2 ∨ n = 0x3 ∨ n = 0x4 ∨ n = 0x5 ∨ n = 0x6 ∨ n = 0x7 ∨ n = 0xE ∨ n = 0xF ∨
      (8 ≤ n.toNat ∧ n.toNat < 12) ∨ (12 ≤ n.toNat ∧ n.toNat < 14) := by
  revert n
  decide

theorem hasInstr_of_class8 {w : Word} (h : opClass w = 0x8) : HasInstr w := by
  obtain hn | hn | hn | hn | hn | hn | hn | hn | hn | hn | ⟨h8, hB⟩ | ⟨hC, hD⟩ := class8_selector_cases (fieldN w)
  · exact ⟨.ldReg _ _, rfl, append_fieldX_fieldY_sel h hn⟩
  · exact ⟨.orReg _ _, rfl, append_fieldX_fieldY_sel h hn⟩
  · exact ⟨.andReg _ _, rfl, append_fieldX_fieldY_sel h hn⟩
  · exact ⟨.xorReg _ _, rfl, append_fieldX_fieldY_sel h hn⟩
  · exact ⟨.addReg _ _, rfl, append_fieldX_fieldY_sel h hn⟩
  · exact ⟨.subReg _ _, rfl, append_fieldX_fieldY_sel h hn⟩
  · exact ⟨.shrReg _ _, rfl, append_fieldX_fieldY_sel h hn⟩
  · exact ⟨.subnReg _ _, rfl, append_fieldX_fieldY_sel h hn⟩
  · exact ⟨.shlReg _ _, rfl, append_fieldX_fieldY_sel h hn⟩
  · exact ⟨.illegal8F _, rfl, class8_append_bitsXY h hn⟩
  · exact ⟨.illegal88toB _ _, rfl, class8_append_bitsXY h (fieldN_of_8toB h8 hB)⟩
  · exact ⟨.illegal8CtoD _ _, rfl, class8_append_bitsXY h (fieldN_of_CtoD hC hD)⟩

/-- The classes of R74; E and F are illegal (R79). -/
theorem opClass_cases (c : Nibble) :
    c = 0x0 ∨ c = 0x1 ∨ c = 0x2 ∨ c = 0x3 ∨ c = 0x4 ∨ c = 0x5 ∨ c = 0x6 ∨ c = 0x7 ∨ c = 0x8 ∨ c = 0x9 ∨ c = 0xA ∨
      c = 0xB ∨ c = 0xC ∨ c = 0xD ∨ 14 ≤ c.toNat := by
  revert c
  decide

/-- Every word is the encoding of a well-formed instruction: each class by the shape of its operands (R72, R75). -/
theorem hasInstr (w : Word) : HasInstr w := by
  obtain h | h | h | h | h | h | h | h | h | h | h | h | h | h | hEF := opClass_cases (opClass w)
  · exact hasInstr_of_class0 h
  · exact ⟨.jp _, rfl, append_fieldNNN h⟩
  · exact ⟨.call _, rfl, append_fieldNNN h⟩
  · exact ⟨.seImm _ _, rfl, append_fieldX_fieldNN h⟩
  · exact ⟨.sneImm _ _, rfl, append_fieldX_fieldNN h⟩
  · exact ⟨.seReg _ _ _, rfl, append_fieldX_fieldY_fieldN h⟩
  · exact ⟨.ldImm _ _, rfl, append_fieldX_fieldNN h⟩
  · exact ⟨.addImm _ _, rfl, append_fieldX_fieldNN h⟩
  · exact hasInstr_of_class8 h
  · exact ⟨.sneReg _ _ _, rfl, append_fieldX_fieldY_fieldN h⟩
  · exact ⟨.ldI _, rfl, append_fieldNNN h⟩
  · exact ⟨.jpV0 _, rfl, append_fieldNNN h⟩
  · exact ⟨.rnd _ _, rfl, append_fieldX_fieldNN h⟩
  · exact ⟨.drw _ _ _, rfl, append_fieldX_fieldY_fieldN h⟩
  · exact ⟨.illegalEF _, rfl, append_of_classEF hEF⟩

/-- Settles O5: a word is the encoding of some well-formed instruction, and that is the one it decodes to. -/
theorem encodeOfDecodeIsIdentity : Obligations.EncodeOfDecodeIsIdentity := by
  intro w
  obtain ⟨i, hwf, rfl⟩ := hasInstr w
  rw [decodeWord_encode hwf]
  exact ⟨hwf, rfl⟩

/-- Settles O1: the decoder evaluated on the ten words. -/
theorem knownWordsDecode : Obligations.KnownWordsDecode := by
  unfold Obligations.KnownWordsDecode
  decide

/-! ## The opcode table (R75, R79) -/

/-- Two rows some word could fit at once: they ask for the same bits wherever both masks look. -/
def OpcodeRow.overlaps (r q : OpcodeRow) : Bool := r.matchBits &&& q.mask == q.matchBits &&& r.mask

theorem OpcodeRow.fits_iff {r : OpcodeRow} {w : Word} : r.fits w = true ↔ w &&& r.mask = r.matchBits := beq_iff_eq

theorem OpcodeRow.overlaps_of_fits {r q : OpcodeRow} {w : Word} (hr : r.fits w = true) (hq : q.fits w = true) :
    r.overlaps q = true := by
  rw [OpcodeRow.fits_iff] at hr hq
  rw [OpcodeRow.overlaps, beq_iff_eq, ← hr, ← hq, BitVec.and_assoc, BitVec.and_assoc, BitVec.and_comm r.mask]

/-- The one row with priority over a row that overlaps it is that of `RET` (R76). -/
theorem opcodeTable_overlaps :
    opcodeTable.Pairwise fun r q => r.overlaps q = true → r.mask = 0xF0FF ∧ r.matchBits = 0x00EE := by
  decide

/-- In a list where no two elements meet `p`, the first that meets it is any that does. -/
theorem find?_eq_some_of_pairwise {α : Type} {p : α → Bool} {l : List α} {a : α}
    (hl : l.Pairwise fun b c => ¬ (p b = true ∧ p c = true)) (ha : a ∈ l) (hp : p a = true) : l.find? p = some a := by
  induction hl with
  | nil => cases ha
  | @cons b l hb _ ih =>
    obtain rfl | hmem := List.mem_cons.mp ha
    · exact List.find?_cons_of_pos hp
    · rw [List.find?_cons_of_neg fun hpb => hb a hmem ⟨hpb, hp⟩]
      exact ih hmem

theorem rowOf_mem_opcodeTable (i : Instr) : rowOf i ∈ opcodeTable := by
  cases i <;> simp [opcodeTable, rowSamples, rowOf]

theorem Laws.EncodesItsRow.statement (i : Instr) : Statement i :=
  match i with
  | .ret b => ret b
  | .halt b nn => halt b nn
  | .jp nnn => jp nnn
  | .call nnn => call nnn
  | .seImm x nn => seImm x nn
  | .sneImm x nn => sneImm x nn
  | .seReg x y b => seReg x y b
  | .ldImm x nn => ldImm x nn
  | .addImm x nn => addImm x nn
  | .ldReg x y => ldReg x y
  | .orReg x y => orReg x y
  | .andReg x y => andReg x y
  | .xorReg x y => xorReg x y
  | .addReg x y => addReg x y
  | .subReg x y => subReg x y
  | .shrReg x y => shrReg x y
  | .subnReg x y => subnReg x y
  | .shlReg x y => shlReg x y
  | .sneReg x y b => sneReg x y b
  | .ldI nnn => ldI nnn
  | .jpV0 nnn => jpV0 nnn
  | .rnd x nn => rnd x nn
  | .drw x y n => drw x y n
  | .illegal88toB xy low => illegal88toB xy low
  | .illegal8CtoD xy low => illegal8CtoD xy low
  | .illegal8F xy => illegal8F xy
  | .illegalEF low => illegalEF low

theorem fits_rowOf_decodeWord (w : Word) : (rowOf (decodeWord w)).fits w = true := by
  have hfits : (rowOf (decodeWord w)).fits (encode (decodeWord w)) = true := Laws.EncodesItsRow.statement _
  obtain ⟨-, hencode⟩ := encodeOfDecodeIsIdentity w
  rwa [hencode] at hfits

/-- The words that fit the row of `RET` are its words (R76). -/
theorem retWord_of_and_mask {w : Word} (h : w &&& 0xF0FF = 0x00EE) : Machine.RetWord w := by
  have hw : opClass w ++ (bitsX w ++ fieldNN w) = w := by rw [bitsX_append_fieldNN, opClass_append_fieldNNN]
  rw [← hw, and_F0FF] at h
  have hclass := congrArg opClass h
  have hlow := congrArg fieldNN h
  rw [opClass_append_nibble_byte] at hclass
  rw [fieldNN_append] at hlow
  exact ⟨by rw [← opClass_toNat, hclass]; rfl, by rw [← fieldNN_toNat, hlow]; rfl⟩

/-- A word that is no `RET` fits no two rows. -/
theorem opcodeTable_fits_once {w : Word} (h : ¬ Machine.RetWord w) :
    opcodeTable.Pairwise fun r q => ¬ (r.fits w = true ∧ q.fits w = true) := by
  refine opcodeTable_overlaps.imp fun {r q} honly ⟨hr, hq⟩ => h ?_
  obtain ⟨hmask, hmatch⟩ := honly (OpcodeRow.overlaps_of_fits hr hq)
  rw [OpcodeRow.fits_iff, hmask, hmatch] at hr
  exact retWord_of_and_mask hr

/-- Settles O3: a word of `RET` fits the first row; any other word fits its own row and no other. -/
theorem everyWordDecodesToItsTableRow : Obligations.EveryWordDecodesToItsTableRow := by
  intro w
  have hfits := fits_rowOf_decodeWord w
  by_cases hret : Machine.RetWord w
  · rw [Machine.decodeWord_of_retWord hret] at hfits ⊢
    exact List.find?_cons_of_pos hfits
  · exact find?_eq_some_of_pairwise (opcodeTable_fits_once hret) (rowOf_mem_opcodeTable _) hfits

end Sys2Proof
end

section
/-! One step and a run of steps (R90 to R100), and the word the model places at `PC` (log 10). -/

namespace Sys2Proof.Machine

/-! ## The step -/

theorem decodeBytes_fetched (s : State) :
    decodeBytes [s.mem.read s.pc.toNat, s.mem.read (s.pc.toNat + 1)] = .ok (decodeWord (fetchWord s), []) := rfl

/-- Settles O6: the two bytes at `PC` are the word fetched. -/
theorem stepRunsTheDecodedInstruction : Obligations.StepRunsTheDecodedInstruction := by
  intro s i hrun hpc hdecode
  rw [decodeBytes_fetched] at hdecode
  cases hdecode
  exact step_of_fetch hrun (Nat.lt_of_succ_lt_succ hpc)

/-- Settles O18: the next step finds `PC` past memory before it fetches. -/
theorem pcPastMemoryHaltsTheNextStep : Obligations.PcPastMemoryHaltsTheNextStep :=
  fun _ _ _ hrun hpc => step_of_endOfMemory hrun hpc

/-- Settles O17: the codes and the ports read off the value of `STATUS`. -/
theorem statusPortsShowTheStop : Obligations.StatusPortsShowTheStop :=
  ⟨rfl, rfl, rfl, fun _ _ => ⟨rfl, rfl, rfl, rfl, rfl, rfl, fun _ => ⟨rfl, rfl, rfl⟩⟩⟩

/-! ## Run as repeated Step (R98) -/

theorem run_add (j k : Nat) (s : State) : run (j + k) s = run k (run j s) := by
  induction j generalizing s with
  | zero => rw [Nat.zero_add, run]
  | succ j ih =>
    by_cases hnext : ∃ t, step s = .next t
    · obtain ⟨t, ht⟩ := hnext
      rw [Nat.succ_add, run_succ_of_next ht, run_succ_of_next ht, ih]
    · have hstuck := not_exists.mp hnext
      rw [run_of_not_next hstuck, run_of_not_next hstuck, run_of_not_next hstuck]

/-- Settles O10: a run splits at any of its steps, by induction on the steps before the split. -/
theorem runIsRepeatedStep : Obligations.RunIsRepeatedStep :=
  fun s j k => ⟨run_add j k s, fun _ hstep => run_succ_of_next hstep k⟩

/-! ## The placed word (log 10) -/

theorem tableWord_toNat (w : Word) : tableWord 16 w.toNat = w := by
  rw [tableWord, Nat.mod_eq_of_lt w.isLt, BitVec.ofNat_toNat, BitVec.setWidth_eq]

theorem withFetchWord_mem (s : State) (w : Word) :
    (s.withFetchWord 16 w.toNat).mem = s.mem.writeBytes s.pc.toNat [w.extractLsb' 8 8, w.extractLsb' 0 8] := by
  rw [State.withFetchWord, tableWord_toNat, placeWord]

/-- The word placed at `PC` is the word the next fetch reads (R53, R92). -/
theorem fetchWord_withFetchWord {s : State} (hwf : s.mem.wf) (hpc : s.pc.toNat + 1 < 4096) (w : Word) :
    fetchWord (s.withFetchWord 16 w.toNat) = w := by
  have hread := Memory.read_writeBytes_inside hwf (a := s.pc.toNat) (bs := [w.extractLsb' 8 8, w.extractLsb' 0 8]) hpc
  show (s.withFetchWord 16 w.toNat).mem.readWord s.pc.toNat = w
  rw [withFetchWord_mem, Memory.readWord, hread 1 Nat.one_lt_two]
  exact (congrArg (· ++ _) (hread 0 Nat.two_pos)).trans (wordOfBytes_bytes w)

theorem unchangedBut_withFetchWord (s : State) (nbits w : Nat) : UnchangedBut [.mem] s (s.withFetchWord nbits w) := by
  refine unchangedBut_of fun p => ?_
  cases p <;> simp [SameAt, State.withFetchWord, placeWord]

/-- Settles O11: the two bytes of the word stand at `PC` and memory is as before elsewhere. -/
theorem placedWordIsTheNextToRun : Obligations.PlacedWordIsTheNextToRun := by
  intro s w hrun hpc hwf
  refine ⟨?step, unchangedBut_withFetchWord s _ _, fun a ha ha' => ?elsewhere⟩
  case step =>
    have hstep := step_of_fetch (s := s.withFetchWord 16 w.toNat) hrun (Nat.lt_of_succ_lt_succ hpc)
    rw [fetchWord_withFetchWord hwf hpc] at hstep
    exact hstep
  case elsewhere =>
    rw [withFetchWord_mem]
    refine Memory.read_writeBytes_outside hwf hpc a ?_
    show a < s.pc.toNat ∨ s.pc.toNat + 2 ≤ a
    omega

end Sys2Proof.Machine
end

section
/-! The host's session and its ports (R59, R100, R215, R216; logs 11 and 12). -/

namespace Sys2Proof.Machine

theorem unchangedBut_withMem (s : State) (m : Memory) : UnchangedBut [.mem] s { s with mem := m } := by
  refine unchangedBut_of fun p => ?_
  cases p <;> simp [SameAt]

/-! ## Load and Step -/

theorem HostSession.load_eq_none_iff {h : HostSession} {buf : List Byte} :
    h.load buf = none ↔ ¬ (h.phase = .fresh ∧ h.core.status = .running ∧ buf.length ≤ 3584) := by
  unfold HostSession.load
  split
  · next haccepted => exact iff_of_false nofun fun hnot => hnot haccepted
  · next hrefused => exact iff_of_true rfl hrefused

theorem HostSession.load_of_not_fresh {h : HostSession} (hphase : h.phase ≠ .fresh) (buf : List Byte) :
    h.load buf = none :=
  load_eq_none_iff.mpr fun haccepted => hphase haccepted.left

theorem HostSession.step_cases {h h' : HostSession} (hstep : h.step = some h') :
    ∃ t, Machine.step h.core = .next t ∧ h' = { core := t, phase := .stepped } := by
  unfold HostSession.step at hstep
  split at hstep
  · next t ht =>
    cases hstep
    exact ⟨t, ht, rfl⟩
  · cases hstep
  · cases hstep

/-- Settles O46: the conditions of Load, the copy of the buffer, and the phase after a Load or a step. -/
theorem loadCopiesTheBufferOnce : Obligations.LoadCopiesTheBufferOnce := by
  intro h buf hwf
  refine ⟨HostSession.load_eq_none_iff, fun h' hload => ?loaded, fun h' hstep => ?stepped⟩
  case loaded =>
    obtain ⟨⟨-, -, hlen⟩, rfl⟩ := HostSession.load_cases hload
    have hfit : Config.progBase + buf.length ≤ Config.memSize := Nat.add_le_add_left hlen Config.progBase
    exact ⟨Memory.read_writeBytes_inside hwf hfit, Memory.read_writeBytes_outside hwf hfit,
      unchangedBut_withMem h.core _, HostSession.load_of_not_fresh nofun⟩
  case stepped =>
    obtain ⟨t, -, rfl⟩ := HostSession.step_cases hstep
    exact HostSession.load_of_not_fresh nofun

/-! ## The write port (R216) -/

theorem HostSession.portWrite_refused {h : HostSession} {addr : Addr12}
    (hrefused : h.phase = .stepped ∨ addr.toNat < 0x200) (data : Byte) : h.portWrite addr data = h := by
  refine if_neg fun haccepted => ?_
  obtain ⟨hphase, haddr⟩ := haccepted
  exact hrefused.elim hphase (Nat.not_lt.mpr haddr)

theorem HostSession.portWrite_accepted {h : HostSession} {addr : Addr12} (hphase : h.phase ≠ .stepped)
    (haddr : 0x200 ≤ addr.toNat) (data : Byte) :
    h.portWrite addr data =
      { core := { h.core with mem := h.core.mem.write addr.toNat data }, phase := .loaded } :=
  if_pos ⟨hphase, haddr⟩

theorem HostSession.portWrite_status (h : HostSession) (addr : Addr12) (data : Byte) :
    (h.portWrite addr data).core.status = h.core.status := by
  unfold HostSession.portWrite
  split <;> rfl

/-- Settles O54: a refused write leaves the session, an accepted one writes the one byte. -/
theorem writePortIsHonouredOnlyBeforeTheFirstStep : Obligations.WritePortIsHonouredOnlyBeforeTheFirstStep := by
  intro h addr data hwf
  refine ⟨fun hrefused => HostSession.portWrite_refused hrefused data, fun hphase haddr => ?accepted⟩
  case accepted =>
    rw [HostSession.portWrite_accepted hphase haddr]
    exact ⟨Memory.read_write hwf addr.isLt data, unchangedBut_withMem h.core _⟩

/-! ## A stopped machine (R100) -/

theorem not_step_next_of_stopped {s : State} (hstopped : s.status ≠ .running) (t : State) : step s ≠ .next t :=
  (runningMachineAlwaysHasOneStep s).right hstopped t

theorem HostSession.step_of_stopped {h : HostSession} (hstopped : h.core.status ≠ .running) : h.step = none := by
  rw [Option.eq_none_iff_forall_ne_some]
  intro h' hstep
  obtain ⟨t, ht, -⟩ := HostSession.step_cases hstep
  exact not_step_next_of_stopped hstopped t ht

/-- Settles O9: no step means no move of Run, of the host's Step and of the go port; Load asks for a running machine, the
write port leaves `STATUS`, and Reset sets it. -/
theorem stoppedMachineStaysStopped : Obligations.StoppedMachineStaysStopped := by
  intro h hstopped
  have hstuck := not_step_next_of_stopped hstopped
  have hnone := HostSession.step_of_stopped hstopped
  refine ⟨hstuck, run_of_not_next hstuck, fun buf => ?load, hnone, ?go, h.portWrite_status, fun _ => rfl⟩
  case load => exact HostSession.load_eq_none_iff.mpr fun ⟨_, hrun, _⟩ => hstopped hrun
  case go => rw [HostSession.portGo, hnone, Option.getD_none]

/-! ## Inspection (R215) -/

/-- Settles O53: the inspection lists the seven items that are neither the seed nor memory. -/
theorem inspectionHidesOnlySeedAndMemory : Obligations.InspectionHidesOnlySeedAndMemory := by
  intro s t
  constructor
  · intro h
    obtain ⟨hv, hi, hpc, hstack, hsp, hdisplay, hstatus⟩ := Inspection.mk.inj h
    exact State.eq_of_items rfl hv.symm hi.symm hpc.symm hstack.symm hsp.symm rfl hdisplay.symm hstatus.symm
  · intro h
    rw [h]
    rfl

end Sys2Proof.Machine
end

section
/-! The invariants of R221 at Reset, after Load and after one step, and the bound of R25 on `PC`. -/

namespace Sys2Proof.Machine

/-- Settles O50: the step lemma of the run's induction, over every state that meets the invariants. -/
theorem everyStepKeepsTheInvariants : Obligations.EveryStepKeepsTheInvariants := fun _ _ => step_inv

/-- The reset state is a launch state of the empty program. -/
theorem resetWith_inv (sd : Seed) : Inv (State.resetWith sd) :=
  (launchState_resetWith_loadBytes sd (buf := []) (Nat.zero_le _)).inv Memory.wf_nil

/-- Settles O48: Reset leaves the launch state of the empty program, whatever the seed. -/
theorem invariantsHoldAtReset : Obligations.InvariantsHoldAtReset :=
  ⟨resetWith_inv Config.seedInit, resetWith_inv⟩

theorem loadBytes_inv {s : State} (h : Inv s) (hrun : s.status = .running) {buf : List Byte}
    (hlen : buf.length ≤ 3584) : Inv (s.loadBytes buf) := by
  have hfit : Config.progBase + buf.length ≤ Config.memSize := Nat.add_le_add_left hlen Config.progBase
  have hbounds : WithinBounds (s.loadBytes buf) := h.withinBounds.congr rfl rfl rfl rfl
  refine hbounds.inv (Memory.writeBytes_wf h.memWf _ buf) (fun a ha => ?low) (stopRecord_of_running hrun)
  case low => exact (Memory.read_writeBytes_outside h.memWf hfit a (.inl ha)).trans (h.lowMemoryZero a ha)

/-- Settles O49: an accepted Load finds the machine running and writes from 0x200 on only. -/
theorem loadKeepsTheInvariants : Obligations.LoadKeepsTheInvariants := by
  intro h h' buf hinv hload
  obtain ⟨⟨-, hrun, hlen⟩, rfl⟩ := HostSession.load_cases hload
  exact loadBytes_inv hinv hrun hlen

/-- Settles O52: before the fetch a step stops and leaves `PC`; after it the advanced `PC` is at most 0x1000, from where
an instruction keeps the bounds, whatever `PC` was within them before. -/
theorem pcNeverWraps : Obligations.PcNeverWraps := by
  intro s t p hinv hstep
  obtain ⟨-, ⟨-, rfl⟩ | ⟨-, rfl⟩ | ⟨hfetch, hexec⟩⟩ := step_cases hstep
  · exact .inl ⟨rfl, nofun⟩
  · exact .inl ⟨rfl, nofun⟩
  · have hpc : (p + 2).toNat ≤ 0x1000 :=
      Nat.le_trans (Nat.le_of_eq (advancePC_toNat hfetch)) (Nat.add_le_add_right (Nat.le_of_lt_succ hfetch) 2)
    exact .inr (exec_withinBounds (hinv.withinBounds.setPC (Nat.le_trans hpc (by decide))) hpc hexec).pc

end Sys2Proof.Machine
end

section
/-! A return undoes a call whose stack it finds (R131, R132). -/

namespace Sys2Proof.Machine

/-- Settles O31: the slot a call writes is the one the return reads and zeroes. -/
theorem returnUndoesCall : Obligations.ReturnUndoesCall := by
  intro s t m nnn ignored hsp hcall hstack hspm
  rw [execCall_of_lt hsp] at hcall
  cases hcall
  have htop : m.sp.val = s.sp.val + 1 := congrArg Fin.val hspm
  refine ⟨_, execRet_of_pos htop hsp ignored, ?pc, rfl, fun k hk => ?slot, unchangedBut_pc_stack_sp m _ _ _⟩
  case pc =>
    show m.stack[s.sp.val] = s.pc
    simp only [hstack, Vector.getElem_set_self]
  case slot =>
    show (m.stack.set s.sp.val 0)[k] = _
    rw [hstack, Vector.getElem_set, Vector.getElem_set]
    by_cases hsame : s.sp.val = k
    · rw [if_pos hsame, if_pos hsame.symm]
    · rw [if_neg hsame, if_neg hsame, if_neg (Ne.symm hsame)]

end Sys2Proof.Machine
end

section
/-! The writer columns of R35: the items and the registers each instruction may write, as functions of the instruction,
held to `exec` once; what an instruction changed is among them. -/

namespace Sys2Proof.Machine

/-! ## What an instruction writes -/

/-- The items an instruction may write. -/
def writes : Instr → List Part
  | .ret _ => [.pc, .stack, .sp, .status]
  | .halt _ _ => [.status]
  | .jp _ => [.pc]
  | .call _ => [.pc, .stack, .sp, .status]
  | .seImm _ _ => [.pc]
  | .sneImm _ _ => [.pc]
  | .seReg _ _ _ => [.pc]
  | .sneReg _ _ _ => [.pc]
  | .ldI _ => [.i]
  | .jpV0 _ => [.pc]
  | .rnd _ _ => [.v, .seed]
  | .drw _ _ _ => [.v, .display, .status]
  | .illegal88toB _ _ => [.status]
  | .illegal8CtoD _ _ => [.status]
  | .illegal8F _ => [.status]
  | .illegalEF _ => [.status]
  | _ => [.v]

theorem exec_unchangedBut_writes {i : Instr} {s t : State} (h : exec i s = .next t) : UnchangedBut (writes i) s t := by
  cases i with
  | ret b => exact execRet_unchangedBut h
  | call nnn => exact execCall_unchangedBut h
  | drw x y n => exact execDrw_unchangedBut h
  | rnd x nn => cases h; exact unchangedBut_setV_setSeed s _ _ _
  | ldI nnn => cases h; exact unchangedBut_setI s _
  | jp | jpV0 => cases h; exact unchangedBut_setPC s _
  | seImm | sneImm | seReg | sneReg => cases h; exact unchangedBut_skipIf s _
  | halt | illegal88toB | illegal8CtoD | illegal8F | illegalEF => cases h; exact unchangedBut_stop s _
  | ldImm | addImm | ldReg | orReg | andReg | xorReg => cases h; exact unchangedBut_setV s _ _
  | addReg | subReg | shrReg | subnReg | shlReg => cases h; exact unchangedBut_setResultThenFlag s _ _ _

/-- An item that changed is one the instruction writes. -/
theorem mem_writes_of_changed {i : Instr} {s t : State} (h : exec i s = .next t) {p : Part} (hp : ¬ SameAt s t p) :
    p ∈ writes i :=
  Classical.byContradiction fun hnot => hp (exec_unchangedBut_writes h p hnot)

/-- The registers an instruction may write. -/
def destRegs : Instr → List Reg
  | .ldImm x _ => [x]
  | .addImm x _ => [x]
  | .ldReg x _ => [x]
  | .orReg x _ => [x]
  | .andReg x _ => [x]
  | .xorReg x _ => [x]
  | .rnd x _ => [x]
  | .addReg x _ => [x, 15]
  | .subReg x _ => [x, 15]
  | .shrReg x _ => [x, 15]
  | .subnReg x _ => [x, 15]
  | .shlReg x _ => [x, 15]
  | .drw _ _ _ => [15]
  | _ => []

theorem regsUnchangedBut_of_v_eq {s t : State} (h : t.v = s.v) (regs : List Reg) : RegsUnchangedBut regs s t :=
  fun r _ => State.getV_congr h r

theorem execDrw_regsUnchangedBut {x y : Reg} {n : Nibble} {s t : State} (h : exec (.drw x y n) s = .next t) :
    RegsUnchangedBut [15] s t := by
  rcases execDrw_cases s x y n with hread | hgrid | ⟨-, -, hdraw⟩
  · exact regsUnchangedBut_of_v_eq (raiseHere_unchangedBut (hread.symm.trans h) .v (by decide)) _
  · exact regsUnchangedBut_of_v_eq (raiseHere_unchangedBut (hgrid.symm.trans h) .v (by decide)) _
  · rw [hdraw] at h
    cases h
    exact regsUnchangedBut_drawOnto _ _ s

theorem exec_regsUnchangedBut_destRegs {i : Instr} {s t : State} (h : exec i s = .next t) :
    RegsUnchangedBut (destRegs i) s t := by
  cases i with
  | ldImm | addImm | ldReg | orReg | andReg | xorReg => cases h; exact regsUnchangedBut_setV s _ _
  | addReg | subReg | shrReg | subnReg | shlReg => cases h; exact regsUnchangedBut_setResultThenFlag s _ _ _
  | rnd x nn => cases h; exact regsUnchangedBut_setV_setSeed s _ _ _
  | drw x y n => exact execDrw_regsUnchangedBut h
  | _ => exact regsUnchangedBut_of_v_eq (exec_unchangedBut_writes h .v (by simp [writes])) _

/-- A register that changed is a destination of the instruction. -/
theorem mem_destRegs_of_changed {i : Instr} {s t : State} (h : exec i s = .next t) {r : Reg}
    (hr : t.getV r ≠ s.getV r) : r ∈ destRegs i :=
  Classical.byContradiction fun hnot => hr (exec_regsUnchangedBut_destRegs h r hnot)

/-! ## The writer columns, item by item -/

theorem mem_writes_i {i : Instr} : Part.i ∈ writes i ↔ ∃ nnn, i = .ldI nnn := by
  cases i <;> simp [writes]

theorem mem_writes_stack_or_sp {i : Instr} :
    Part.stack ∈ writes i ∨ Part.sp ∈ writes i ↔ (∃ nnn, i = .call nnn) ∨ ∃ b, i = .ret b := by
  cases i <;> simp [writes]

theorem mem_writes_seed {i : Instr} : Part.seed ∈ writes i ↔ ∃ x nn, i = .rnd x nn := by
  cases i <;> simp [writes]

theorem mem_writes_display {i : Instr} : Part.display ∈ writes i ↔ ∃ x y n, i = .drw x y n := by
  cases i <;> simp [writes]

theorem mem_writes_pc {i : Instr} :
    Part.pc ∈ writes i ↔ (∃ nnn, i = .jp nnn ∨ i = .call nnn ∨ i = .jpV0 nnn) ∨ (∃ b, i = .ret b) ∨
      (∃ x nn, i = .seImm x nn ∨ i = .sneImm x nn) ∨ ∃ x y b, i = .seReg x y b ∨ i = .sneReg x y b := by
  cases i <;> simp [writes]

theorem mem_writes_status {i : Instr} :
    Part.status ∈ writes i ↔ (∃ b nn, i = .halt b nn) ∨ (∃ nnn, i = .call nnn) ∨ (∃ b, i = .ret b) ∨
      (∃ x y n, i = .drw x y n) ∨ (∃ xy low, i = .illegal88toB xy low) ∨ (∃ xy low, i = .illegal8CtoD xy low) ∨
      (∃ xy, i = .illegal8F xy) ∨ ∃ low, i = .illegalEF low := by
  cases i <;> simp [writes]

theorem mem_destRegs {i : Instr} {r : Reg} :
    r ∈ destRegs i ↔
      (∃ nn, i = .ldImm r nn ∨ i = .addImm r nn ∨ i = .rnd r nn) ∨
      (∃ y, i = .ldReg r y ∨ i = .orReg r y ∨ i = .andReg r y ∨ i = .xorReg r y) ∨
      (∃ x y, (r = x ∨ r = 15) ∧
        (i = .addReg x y ∨ i = .subReg x y ∨ i = .shrReg x y ∨ i = .subnReg x y ∨ i = .shlReg x y)) ∨
      (r = 15 ∧ ∃ x y n, i = .drw x y n) := by
  cases i <;> simp [destRegs, eq_comm]

/-- Settles O42: what changed is among the writes, and each column of the table lists its writers. -/
theorem eachItemHasOnlyItsWriters : Obligations.EachItemHasOnlyItsWriters :=
  fun _ _ _ h =>
    ⟨exec_mem h,
      fun hi => mem_writes_i.mp (mem_writes_of_changed h hi),
      fun hstack => mem_writes_stack_or_sp.mp (hstack.imp (mem_writes_of_changed h) (mem_writes_of_changed h)),
      fun hseed => mem_writes_seed.mp (mem_writes_of_changed h hseed),
      fun hdisplay => mem_writes_display.mp (mem_writes_of_changed h hdisplay),
      fun hpc => mem_writes_pc.mp (mem_writes_of_changed h hpc),
      fun hstatus => mem_writes_status.mp (mem_writes_of_changed h hstatus),
      fun _ hr => mem_destRegs.mp (mem_destRegs_of_changed h hr)⟩

end Sys2Proof.Machine
end

section
/-! The reader columns of R35. Two runs of one instruction, from a state and from that state with an item replaced, are
compared through a relation that the writes of the instruction carry from the two states to the two results. -/

namespace Sys2Proof.Machine

/-! ## Relations an instruction carries along -/

/-- Whether an instruction's rule uses the value of `PC` (R131, R138); a fault's record uses it too (log 5). -/
def readsPc : Instr → Bool
  | .call _ => true
  | .seImm _ _ => true
  | .sneImm _ _ => true
  | .seReg _ _ _ => true
  | .sneReg _ _ _ => true
  | _ => false

theorem State.setV_getV_self (s : State) (r : Reg) : s.setV r (s.getV r) = s := by
  simp [State.setV, State.getV]

/-- The instruction `i` reads alike in `s` and `s'` what it reads, and whatever it may write keeps `R`. -/
structure Transfers (i : Instr) (R : State → State → Prop) (s s' : State) : Prop where
  start : R s s' := by exact rfl
  regs : ∀ r, readsReg i r = true → s'.getV r = s.getV r := by exact fun _ _ => rfl
  pc : readsPc i = true → s'.pc = s.pc := by exact fun _ => rfl
  setV : ∀ {u u' : State} (r : Reg) (b : Byte), R u u' → R (u.setV r b) (u'.setV r b) := by rintro _ _ _ _ rfl; rfl
  setPC : ∀ w, R (s.setPC w) (s'.setPC w) := by exact fun _ => rfl
  setI : Part.i ∈ writes i → ∀ w, R (s.setI w) (s'.setI w) := by exact fun _ _ => rfl
  seed : Part.seed ∈ writes i → s'.seed = s.seed ∧ ∀ sd, R (s.setSeed sd) (s'.setSeed sd) := by
    exact fun _ => ⟨rfl, fun _ => rfl⟩
  stack : Part.stack ∈ writes i ∨ Part.sp ∈ writes i → s'.stack = s.stack ∧ s'.sp = s.sp ∧ ∀ pc stack sp,
      R { s with pc := pc, stack := stack, sp := sp } { s' with pc := pc, stack := stack, sp := sp } := by
    exact fun _ => ⟨rfl, rfl, fun _ _ _ => rfl⟩
  draw : Part.display ∈ writes i → s'.mem = s.mem ∧ s'.i = s.i ∧ s'.display = s.display ∧ ∀ d,
      R { s with display := d } { s' with display := d } := by exact fun _ => ⟨rfl, rfl, rfl, fun _ => rfl⟩
  halt : ∀ r, R (s.stop (.halted r)) (s'.stop (.halted r)) := by exact fun _ => rfl
  raise : ∀ r w, R (s.stop (.faulted r (s.pc - 2) w)) (s'.stop (.faulted r (s'.pc - 2) w)) := by
    exact fun _ _ => rfl

section
variable {i : Instr} {R : State → State → Prop} {s s' : State}

theorem Transfers.setResultThenFlag (hT : Transfers i R s s') (x : Reg) (res flag : Byte) :
    R (s.setResultThenFlag x res flag) (s'.setResultThenFlag x res flag) :=
  hT.setV _ flag (hT.setV x res hT.start)

theorem Transfers.skipIf (hT : Transfers i R s s') (hpc : readsPc i = true) (c : Bool) :
    R (s.skipIf c) (s'.skipIf c) := by
  cases c with
  | false => exact hT.start
  | true =>
    show R (s.setPC (s.pc + 2)) (s'.setPC (s'.pc + 2))
    rw [hT.pc hpc]
    exact hT.setPC _

/-- Both runs raise the same fault, each with the address its own `PC` gives. -/
theorem Transfers.raiseHere (hT : Transfers i R s s') {f : FaultReason} (hs : exec i s = Machine.raiseHere f i s)
    (hs' : exec i s' = Machine.raiseHere f i s') : ∃ t t', exec i s = .next t ∧ exec i s' = .next t' ∧ R t t' :=
  ⟨_, _, hs, hs', hT.raise f _⟩

theorem Transfers.execCall {nnn : Addr12} (hT : Transfers (.call nnn) R s s') :
    ∃ t t', exec (.call nnn) s = .next t ∧ exec (.call nnn) s' = .next t' ∧ R t t' := by
  obtain ⟨hstack, hsp, hset⟩ := hT.stack (.inl (by simp [writes]))
  by_cases hlt : s.sp.val < 16
  · have hlt' : s'.sp.val < 16 := hsp ▸ hlt
    refine ⟨_, _, execCall_of_lt hlt nnn, execCall_of_lt hlt' nnn, ?_⟩
    simp only [hstack, hsp, hT.pc rfl]
    exact hset _ _ _
  · have hfull : s.sp.val = 16 := by have := s.sp.isLt; omega
    exact hT.raiseHere (execCall_full hfull nnn) (execCall_full (hsp ▸ hfull) nnn)

theorem Transfers.execRet {b : Nibble} (hT : Transfers (.ret b) R s s') :
    ∃ t t', exec (.ret b) s = .next t ∧ exec (.ret b) s' = .next t' ∧ R t t' := by
  obtain ⟨hstack, hsp, hset⟩ := hT.stack (.inl (by simp [writes]))
  cases hv : s.sp.val with
  | zero => exact hT.raiseHere (execRet_empty hv b) (execRet_empty (hsp ▸ hv) b)
  | succ k =>
    have hk : k < 16 := by have := s.sp.isLt; omega
    refine ⟨_, _, execRet_of_pos hv hk b, execRet_of_pos (hsp ▸ hv) hk b, ?_⟩
    simp only [hstack]
    exact hset _ _ _

/-- The flag of a draw is 1, 0 or the old value, so a draw does not depend on `VF` but to keep it (R163). -/
theorem Transfers.setDrawFlag (hT : Transfers i R s s') {u u' : State} (h : R u u') (anyFalse clearsVF : Bool) :
    R (u.setVF (drawFlag anyFalse clearsVF (u.getV 15))) (u'.setVF (drawFlag anyFalse clearsVF (u'.getV 15))) := by
  cases anyFalse with
  | true => exact hT.setV _ _ h
  | false =>
    cases clearsVF with
    | true => exact hT.setV _ _ h
    | false =>
      show R (u.setV 15 (u.getV 15)) (u'.setV 15 (u'.getV 15))
      rw [State.setV_getV_self, State.setV_getV_self]
      exact h

theorem composite_congr {o : DrawOperands} (hmem : s'.mem = s.mem) (hdisplay : s'.display = s.display) :
    composite o s' = composite o s := by
  rw [composite, composite, hmem, hdisplay]

theorem Transfers.execDrw {x y : Reg} {n : Nibble} (hT : Transfers (.drw x y n) R s s') :
    ∃ t t', exec (.drw x y n) s = .next t ∧ exec (.drw x y n) s' = .next t' ∧ R t t' := by
  obtain ⟨hmem, hi, hdisplay, hset⟩ := hT.draw (by simp [writes])
  have ho : drawOperands x y n s' = drawOperands x y n s :=
    drawOperands_congr hi (hT.regs x (by simp [readsReg])) (hT.regs y (by simp [readsReg])) n
  cases hread : (drawOperands x y n s).readsOutOfRange with
  | true => exact hT.raiseHere (execDrw_readsOutOfRange hread) (execDrw_readsOutOfRange (ho ▸ hread))
  | false =>
    cases hgrid : (drawOperands x y n s).drawsOutOfRange with
    | true =>
      exact hT.raiseHere (execDrw_drawsOutOfRange hread hgrid) (execDrw_drawsOutOfRange (ho ▸ hread) (ho ▸ hgrid))
    | false =>
      refine ⟨_, _, execDrw_inRange hread hgrid, execDrw_inRange (ho ▸ hread) (ho ▸ hgrid), ?_⟩
      rw [ho, drawOnto, drawOnto, composite_congr hmem hdisplay]
      exact hT.setDrawFlag (hset _) _ _

/-- What `R` relates before an instruction it relates after it: each form by the registers it reads and its one update. -/
theorem Transfers.exec (hT : Transfers i R s s') :
    ∃ t t', Machine.exec i s = .next t ∧ Machine.exec i s' = .next t' ∧ R t t' := by
  have hregs := hT.regs
  cases i with
  | call nnn => exact hT.execCall
  | ret b => exact hT.execRet
  | drw x y n => exact hT.execDrw
  | halt => exact ⟨_, _, rfl, rfl, hT.halt _⟩
  | illegal88toB | illegal8CtoD | illegal8F | illegalEF => exact hT.raiseHere rfl rfl
  | jp nnn => exact ⟨_, _, rfl, rfl, hT.setPC _⟩
  | jpV0 nnn =>
    refine ⟨_, _, rfl, rfl, ?_⟩
    rw [offsetTarget, offsetTarget, hregs 0 rfl]
    exact hT.setPC _
  | ldI nnn => exact ⟨_, _, rfl, rfl, hT.setI (by simp [writes]) _⟩
  | rnd x nn =>
    obtain ⟨hseed, hset⟩ := hT.seed (by simp [writes])
    refine ⟨_, _, rfl, rfl, ?_⟩
    rw [hseed]
    exact hT.setV x (Config.prngByte s.seed &&& immByte nn) (hset (Config.prngReseed s.seed))
  | seImm x nn | sneImm x nn =>
    refine ⟨_, _, rfl, rfl, ?_⟩
    rw [hregs x (by simp [readsReg])]
    exact hT.skipIf rfl _
  | seReg x y b | sneReg x y b =>
    refine ⟨_, _, rfl, rfl, ?_⟩
    rw [hregs x (by simp [readsReg]), hregs y (by simp [readsReg])]
    exact hT.skipIf rfl _
  | ldImm x nn => exact ⟨_, _, rfl, rfl, hT.setV x _ hT.start⟩
  | addImm x nn =>
    refine ⟨_, _, rfl, rfl, ?_⟩
    rw [hregs x (by simp [readsReg])]
    exact hT.setV x _ hT.start
  | ldReg x y =>
    refine ⟨_, _, rfl, rfl, ?_⟩
    rw [hregs y (by simp [readsReg])]
    exact hT.setV x _ hT.start
  | orReg x y | andReg x y | xorReg x y =>
    refine ⟨_, _, rfl, rfl, ?_⟩
    rw [hregs x (by simp [readsReg]), hregs y (by simp [readsReg])]
    exact hT.setV x _ hT.start
  | addReg x y | subReg x y | subnReg x y =>
    refine ⟨_, _, rfl, rfl, ?_⟩
    rw [hregs x (by simp [readsReg]), hregs y (by simp [readsReg])]
    exact hT.setResultThenFlag x _ _
  | shrReg x y | shlReg x y =>
    refine ⟨_, _, rfl, rfl, ?_⟩
    rw [hregs y (by simp [readsReg])]
    exact hT.setResultThenFlag x _ _

/-- `Transfers.exec` where the first run is known. -/
theorem Transfers.exec_next {t : State} (hT : Transfers i R s s') (h : Machine.exec i s = .next t) :
    ∃ t', Machine.exec i s' = .next t' ∧ R t t' := by
  obtain ⟨u, t', hu, ht', hR⟩ := hT.exec
  cases hu.symm.trans h
  exact ⟨t', ht', hR⟩

end

/-! ## A replaced item that is neither read nor written -/

/-- Where the relation is that an item is replaced, the second run answers the first one's result with it replaced. -/
theorem exec_replaced {i : Instr} {f : State → State} {s t : State}
    (hT : Transfers i (fun u u' => u' = f u) s (f s)) (h : exec i s = .next t) : exec i (f s) = .next (f t) := by
  obtain ⟨t', ht', rfl⟩ := hT.exec_next h
  exact ht'

section
variable {i : Instr} {s t : State}

theorem exec_withDisplay (hi : Part.display ∉ writes i) (h : exec i s = .next t) (d : Display) :
    exec i { s with display := d } = .next { t with display := d } :=
  exec_replaced (f := fun u => { u with display := d }) { draw := fun hw => absurd hw hi } h

theorem exec_withMem (hi : Part.display ∉ writes i) (h : exec i s = .next t) (m : Memory) :
    exec i { s with mem := m } = .next { t with mem := m } :=
  exec_replaced (f := fun u => { u with mem := m }) { draw := fun hw => absurd hw hi } h

theorem exec_withI (hi : Part.display ∉ writes i) (hI : Part.i ∉ writes i) (h : exec i s = .next t) (w : Word) :
    exec i { s with i := w } = .next { t with i := w } :=
  exec_replaced (f := fun u => { u with i := w })
    { draw := fun hw => absurd hw hi, setI := fun hw => absurd hw hI } h

theorem exec_withStack (hi : ¬ (Part.stack ∈ writes i ∨ Part.sp ∈ writes i)) (h : exec i s = .next t)
    (st : Vector Word 16) (p : Fin 17) :
    exec i { s with stack := st, sp := p } = .next { t with stack := st, sp := p } :=
  exec_replaced (f := fun u => { u with stack := st, sp := p }) { stack := fun hw => absurd hw hi } h

theorem exec_withSeed (hi : Part.seed ∉ writes i) (h : exec i s = .next t) (sd : Seed) :
    exec i { s with seed := sd } = .next { t with seed := sd } :=
  exec_replaced (f := fun u => { u with seed := sd }) { seed := fun hw => absurd hw hi } h

end

/-! ## A replaced register -/

theorem State.setV_setV_same (s : State) (r : Reg) (b c : Byte) : (s.setV r b).setV r c = s.setV r c := by
  simp [State.setV]

theorem State.setV_setV_comm (s : State) {q r : Reg} (h : q ≠ r) (b c : Byte) :
    (s.setV r b).setV q c = (s.setV q c).setV r b := by
  have hv : r.val ≠ q.val := fun e => h (Fin.ext e.symm)
  simp only [State.setV, Vector.set_comm b c hv]

/-- Since the state `s`, either `V[r]` was overwritten with the same in both runs, or it still holds what `s` held in
the one and `b` in the other. -/
def RegReplaced (r : Reg) (b : Byte) (s u u' : State) : Prop := u' = u ∨ u.getV r = s.getV r ∧ u' = u.setV r b

theorem RegReplaced.setV {r : Reg} {b : Byte} {s u u' : State} (h : RegReplaced r b s u u') (q : Reg) (c : Byte) :
    RegReplaced r b s (u.setV q c) (u'.setV q c) := by
  obtain rfl | ⟨hkept, rfl⟩ := h
  · exact .inl rfl
  · by_cases hq : q = r
    · subst hq
      exact .inl (u.setV_setV_same q b c)
    · exact .inr ⟨(u.getV_setV_other r q c (Ne.symm hq)).trans hkept, u.setV_setV_comm hq b c⟩

theorem transfers_regReplaced {i : Instr} {s : State} {r : Reg} (hr : readsReg i r = false) (b : Byte) :
    Transfers i (RegReplaced r b s) s (s.setV r b) where
  start := .inr ⟨rfl, rfl⟩
  regs q hq := s.getV_setV_other q r b fun hqr => by rw [hqr, hr] at hq; cases hq
  setV q c h := h.setV q c
  setPC _ := .inr ⟨rfl, rfl⟩
  setI _ _ := .inr ⟨rfl, rfl⟩
  seed _ := ⟨rfl, fun _ => .inr ⟨rfl, rfl⟩⟩
  stack _ := ⟨rfl, rfl, fun _ _ _ => .inr ⟨rfl, rfl⟩⟩
  draw _ := ⟨rfl, rfl, rfl, fun _ => .inr ⟨rfl, rfl⟩⟩
  halt _ := .inr ⟨rfl, rfl⟩
  raise _ _ := .inr ⟨rfl, rfl⟩

theorem exec_setV {i : Instr} {s t : State} (h : exec i s = .next t) {r : Reg} (hr : readsReg i r = false) (b : Byte) :
    ∃ t', exec i (s.setV r b) = .next t' ∧ RegsUnchangedBut [r] t t' ∧ UnchangedBut [.v] t t' ∧
      (t'.getV r = t.getV r ∨ t.getV r = s.getV r ∧ t'.getV r = b) := by
  obtain ⟨t', ht', rfl | ⟨hkept, rfl⟩⟩ := (transfers_regReplaced hr b).exec_next h
  · exact ⟨_, ht', fun _ _ => rfl, unchangedBut_of fun p => .inr (by cases p <;> simp [SameAt]), .inl rfl⟩
  · exact ⟨_, ht', regsUnchangedBut_setV t r b, unchangedBut_setV t r b, .inr ⟨hkept, t.getV_setV_same r b⟩⟩

/-! ## A replaced `PC` (log 5) -/

/-- Since the state `s`, either `PC` was overwritten with the same in both runs, or it still holds what `s` held in the
one and `p` in the other; `STATUS` is the same or records one fault at the two addresses. -/
def PcReplaced (p : Word) (s u u' : State) : Prop :=
  ∃ q st, u' = { u with pc := q, status := st } ∧ (q = u.pc ∨ u.pc = s.pc ∧ q = p) ∧
    (st = u.status ∨ ∃ f w, u.status = .faulted f (s.pc - 2) w ∧ st = .faulted f (p - 2) w)

theorem transfers_pcReplaced {i : Instr} (hi : readsPc i = false) (s : State) (p : Word) :
    Transfers i (PcReplaced p s) s { s with pc := p } where
  start := ⟨_, _, rfl, .inr ⟨rfl, rfl⟩, .inl rfl⟩
  regs _ _ := rfl
  pc hpc := by rw [hi] at hpc; cases hpc
  setV _ _ h := by
    obtain ⟨q, st, rfl, hpc, hstatus⟩ := h
    exact ⟨q, st, rfl, hpc, hstatus⟩
  setPC _ := ⟨_, _, rfl, .inl rfl, .inl rfl⟩
  setI _ _ := ⟨_, _, rfl, .inr ⟨rfl, rfl⟩, .inl rfl⟩
  seed _ := ⟨rfl, fun _ => ⟨_, _, rfl, .inr ⟨rfl, rfl⟩, .inl rfl⟩⟩
  stack _ := ⟨rfl, rfl, fun _ _ _ => ⟨_, _, rfl, .inl rfl, .inl rfl⟩⟩
  draw _ := ⟨rfl, rfl, rfl, fun _ => ⟨_, _, rfl, .inr ⟨rfl, rfl⟩, .inl rfl⟩⟩
  halt _ := ⟨_, _, rfl, .inr ⟨rfl, rfl⟩, .inl rfl⟩
  raise f w := ⟨_, _, rfl, .inr ⟨rfl, rfl⟩, .inr ⟨f, w, rfl, rfl⟩⟩

theorem unchangedBut_pc_status (s : State) (pc : Word) (st : Status) :
    UnchangedBut [.pc, .status] s { s with pc := pc, status := st } := by
  refine unchangedBut_of fun p => ?_
  cases p <;> simp [SameAt]

theorem exec_withPC {i : Instr} {s t : State} (h : exec i s = .next t) (hi : readsPc i = false) (p : Word) :
    ∃ t', exec i { s with pc := p } = .next t' ∧ UnchangedBut [.pc, .status] t t' ∧
      (t'.pc = t.pc ∨ t.pc = s.pc ∧ t'.pc = p) ∧
      (t'.status = t.status ∨ ∃ f w, t.status = .faulted f (s.pc - 2) w ∧ t'.status = .faulted f (p - 2) w) := by
  obtain ⟨_, ht', q, st, rfl, hpc, hstatus⟩ := (transfers_pcReplaced hi s p).exec_next h
  exact ⟨_, ht', unchangedBut_pc_status t q st, hpc, hstatus⟩

theorem readsPc_iff {i : Instr} :
    readsPc i = true ↔ (∃ nnn, i = .call nnn) ∨ (∃ x nn, i = .seImm x nn ∨ i = .sneImm x nn) ∨
      ∃ x y b, i = .seReg x y b ∨ i = .sneReg x y b := by
  cases i <;> simp [readsPc]

/-- Settles O43: an item that is not among an instruction's reads is carried along with its replacement, one relation for
each item. -/
theorem eachItemHasOnlyItsReaders : Obligations.EachItemHasOnlyItsReaders := by
  intro i s t h
  refine ⟨fun hdraw => ?draw, fun hcall hret => ?stack, fun hrnd => ?seed, fun r hr => exec_setV h hr,
    fun hcall himm hreg => ?pc⟩
  case draw =>
    have hdisplay : Part.display ∉ writes i := by simpa [mem_writes_display] using hdraw
    refine ⟨exec_withDisplay hdisplay h, exec_withMem hdisplay h, fun hldI => exec_withI hdisplay ?_ h⟩
    simpa [mem_writes_i] using hldI
  case stack =>
    refine exec_withStack ?_ h
    simpa [mem_writes_stack_or_sp] using ⟨hcall, hret⟩
  case seed =>
    refine exec_withSeed ?_ h
    simpa [mem_writes_seed] using hrnd
  case pc =>
    refine exec_withPC h (Bool.eq_false_iff.mpr ?_)
    simpa [readsPc_iff] using ⟨hcall, himm, hreg⟩

/-! ## A replaced `STATUS` (R32) -/

/-- Since the state `s`, either both runs stopped alike, or `STATUS` is still what it was in each. -/
def StatusReplaced (st : Status) (s u u' : State) : Prop :=
  u' = u ∨ u.status = s.status ∧ u' = { u with status := st }

theorem transfers_statusReplaced (i : Instr) (s : State) (st : Status) :
    Transfers i (StatusReplaced st s) s { s with status := st } where
  start := .inr ⟨rfl, rfl⟩
  setV _ _ h := by
    obtain rfl | ⟨hkept, rfl⟩ := h
    · exact .inl rfl
    · exact .inr ⟨hkept, rfl⟩
  setPC _ := .inr ⟨rfl, rfl⟩
  setI _ _ := .inr ⟨rfl, rfl⟩
  seed _ := ⟨rfl, fun _ => .inr ⟨rfl, rfl⟩⟩
  stack _ := ⟨rfl, rfl, fun _ _ _ => .inr ⟨rfl, rfl⟩⟩
  draw _ := ⟨rfl, rfl, rfl, fun _ => .inr ⟨rfl, rfl⟩⟩
  halt _ := .inl rfl
  raise _ _ := .inl rfl

/-- Settles O44: either both runs write the same `STATUS`, or neither writes it. -/
theorem noInstructionReadsStatus : Obligations.NoInstructionReadsStatus := by
  intro i s t st h
  obtain ⟨t', ht', rfl | ⟨hkept, rfl⟩⟩ := (transfers_statusReplaced i s st).exec_next h
  · exact ⟨_, ht', rfl, fun _ => rfl⟩
  · exact ⟨_, ht', rfl, fun hwritten => absurd hkept hwritten⟩

/-! ## The seed over one step (R28) -/

theorem isRnd_iff {i : Instr} : isRnd i = true ↔ Part.seed ∈ writes i := by
  cases i <;> simp [isRnd, writes]

/-- Settles O36: a step that fetches nothing stops whatever the seed, and the word fetched does not depend on it. -/
theorem seedIsSeenOnlyByRnd : Obligations.SeedIsSeenOnlyByRnd := by
  intro s t sd hrnd h
  obtain ⟨hrun, ⟨hpc, rfl⟩ | ⟨hpc, rfl⟩ | ⟨hpc, hexec⟩⟩ := step_cases h
  · exact step_of_endOfMemory (s := { s with seed := sd }) hrun hpc
  · exact step_of_fetchOutOfRange (s := { s with seed := sd }) hrun hpc
  · have hnext : nextInstr s = some (decodeWord (fetchWord s)) := nextInstr_eq_some_iff.mpr ⟨⟨hrun, hpc⟩, rfl⟩
    rw [nextIsRnd_of_nextInstr hnext, Bool.eq_false_iff, Ne, isRnd_iff] at hrnd
    exact (step_of_fetch (s := { s with seed := sd }) hrun hpc).trans (exec_withSeed hrnd hexec sd)

end Sys2Proof.Machine
end
